-- ==== Sys2Proof/Word.lean ====
section
/-! DEFINITION. The value types of the core: bytes, words, addresses, register and key numbers
(00_scope.md R6, R8, R9). -/

namespace Sys2Proof

/-- An 8-bit value: a V register, a timer, a memory byte (R6 `V_WIDTH`, `TIMER_WIDTH`). -/
abbrev Byte := BitVec 8

/-- A 16-bit value: pc, I, a stack entry, an instruction word (R6 `PC_WIDTH`, `I_WIDTH`). -/
abbrev Word := BitVec 16

/-- A 12-bit memory address, or the `nnn` field of a word (R6 `ADDR_BITS`, R61). -/
abbrev Addr := BitVec 12

/-- The number of a general register, 0 to 15 (R20). -/
abbrev RegIdx := Fin 16

/-- The number of a key, 0x0 to 0xF (R38). -/
abbrev KeyIdx := Fin 16

end Sys2Proof
end

