-- ==== Sys2Proof/Syntax.lean ====
section
/-! DEFINITION. The instructions: one constructor for each descriptor of 30_encoding.md R63 and
R67, the halt word (R64) and the unknown words (R65). -/

namespace Sys2Proof

/-- A decoded word. Operand fields are in range by construction (R68). -/
inductive Instr where
  /-- 0000 (R81). -/
  | halt
  /-- 00E0, `CLS` (R117). -/
  | cls
  /-- 00EE, `RET` (R89). -/
  | ret
  /-- 1nnn, `JP nnn` (R90). -/
  | jp (nnn : Addr)
  /-- 2nnn, `CALL nnn` (R91). -/
  | call (nnn : Addr)
  /-- 3xkk, `SE Vx, kk` (R92). -/
  | seImm (x : RegIdx) (kk : Byte)
  /-- 4xkk, `SNE Vx, kk` (R93). -/
  | sneImm (x : RegIdx) (kk : Byte)
  /-- 5xy0, `SE Vx, Vy` (R94). -/
  | seReg (x : RegIdx) (y : RegIdx)
  /-- 6xkk, `LD Vx, kk` (R99). -/
  | ldImm (x : RegIdx) (kk : Byte)
  /-- 7xkk, `ADD Vx, kk` (R100). -/
  | addImm (x : RegIdx) (kk : Byte)
  /-- 8xy0, `LD Vx, Vy` (R101). -/
  | ldReg (x : RegIdx) (y : RegIdx)
  /-- 8xy1, `OR Vx, Vy` (R102). -/
  | orReg (x : RegIdx) (y : RegIdx)
  /-- 8xy2, `AND Vx, Vy` (R103). -/
  | andReg (x : RegIdx) (y : RegIdx)
  /-- 8xy3, `XOR Vx, Vy` (R104). -/
  | xorReg (x : RegIdx) (y : RegIdx)
  /-- 8xy4, `ADD Vx, Vy` (R105). -/
  | addReg (x : RegIdx) (y : RegIdx)
  /-- 8xy5, `SUB Vx, Vy` (R106). -/
  | subReg (x : RegIdx) (y : RegIdx)
  /-- 8xy6, `SHR Vx {, Vy}` (R107). -/
  | shr (x : RegIdx) (y : RegIdx)
  /-- 8xy7, `SUBN Vx, Vy` (R108). -/
  | subn (x : RegIdx) (y : RegIdx)
  /-- 8xyE, `SHL Vx {, Vy}` (R109). -/
  | shl (x : RegIdx) (y : RegIdx)
  /-- 9xy0, `SNE Vx, Vy` (R95). -/
  | sneReg (x : RegIdx) (y : RegIdx)
  /-- Annn, `LD I, nnn` (R111). -/
  | ldI (nnn : Addr)
  /-- Bnnn, `JP V0, nnn` (R96). -/
  | jpV0 (nnn : Addr)
  /-- Cxkk, `RND Vx, kk` (R110). -/
  | rnd (x : RegIdx) (kk : Byte)
  /-- Dxyn, `DRW Vx, Vy, n` (R118). -/
  | drw (x : RegIdx) (y : RegIdx) (n : Fin 16)
  /-- Ex9E, `SKP Vx` (R121). -/
  | skp (x : RegIdx)
  /-- ExA1, `SKNP Vx` (R122). -/
  | sknp (x : RegIdx)
  /-- Fx07, `LD Vx, DT` (R123). -/
  | ldVxDt (x : RegIdx)
  /-- Fx0A, `LD Vx, K` (R124). -/
  | ldVxK (x : RegIdx)
  /-- Fx15, `LD DT, Vx` (R125). -/
  | ldDtVx (x : RegIdx)
  /-- Fx18, `LD ST, Vx` (R126). -/
  | ldStVx (x : RegIdx)
  /-- Fx1E, `ADD I, Vx` (R112). -/
  | addIVx (x : RegIdx)
  /-- Fx29, `LD F, Vx` (R113). -/
  | ldFVx (x : RegIdx)
  /-- Fx33, `LD B, Vx` (R114). -/
  | ldBVx (x : RegIdx)
  /-- Fx55, `LD [I], Vx` (R115). -/
  | ldMemVx (x : RegIdx)
  /-- Fx65, `LD Vx, [I]` (R116). -/
  | ldVxMem (x : RegIdx)
  /-- Any other word, carried whole (R65, R83). -/
  | unknown (w : Word)
deriving DecidableEq, Repr

end Sys2Proof
end

