-- ==== Sys2Proof/Decode.lean ====
section
/-! DEFINITION. Decoding and encoding (30_encoding.md). The decoder is the table of R63 read row by
row, as R66 says; the encoder is written from the "Encoding" line of each instruction's rule. -/

namespace Sys2Proof

/-! ### Fields of a word (R61) -/

/-- `x = w[11:8]`. -/
def fieldX (w : Word) : RegIdx := (w.extractLsb' 8 4).toFin

/-- `y = w[7:4]`. -/
def fieldY (w : Word) : RegIdx := (w.extractLsb' 4 4).toFin

/-- `n = w[3:0]`. -/
def fieldN (w : Word) : Fin 16 := (w.extractLsb' 0 4).toFin

/-- `kk = w[7:0]`. -/
def fieldKK (w : Word) : Byte := w.extractLsb' 0 8

/-- `nnn = w[11:0]`. -/
def fieldNNN (w : Word) : Addr := w.extractLsb' 0 12

/-- The opcode class `w[15:12]`. -/
def fieldClass (w : Word) : Fin 16 := (w.extractLsb' 12 4).toFin

/-! ### The table (R63) and the decoder (R66) -/

/-- One row of R63: the word is the instruction iff `(w AND mask) == bits`. -/
structure Row where
  mask       : Word
  bits       : Word
  descriptor : Word → Instr

/-- The exact test of a row (R63). -/
def Row.covers (r : Row) (w : Word) : Bool := w &&& r.mask == r.bits

/-- The rows of R63 in classes 0 to 5, 9 and B. -/
def rowsFlow : List Row := [
  ⟨0xFFFF, 0x00E0, fun _ => .cls⟩,
  ⟨0xFFFF, 0x00EE, fun _ => .ret⟩,
  ⟨0xF000, 0x1000, fun w => .jp (fieldNNN w)⟩,
  ⟨0xF000, 0x2000, fun w => .call (fieldNNN w)⟩,
  ⟨0xF000, 0x3000, fun w => .seImm (fieldX w) (fieldKK w)⟩,
  ⟨0xF000, 0x4000, fun w => .sneImm (fieldX w) (fieldKK w)⟩,
  ⟨0xF00F, 0x5000, fun w => .seReg (fieldX w) (fieldY w)⟩,
  ⟨0xF00F, 0x9000, fun w => .sneReg (fieldX w) (fieldY w)⟩,
  ⟨0xF000, 0xB000, fun w => .jpV0 (fieldNNN w)⟩]

/-- The rows of R63 in classes 6, 7, 8 and C. -/
def rowsAlu : List Row := [
  ⟨0xF000, 0x6000, fun w => .ldImm (fieldX w) (fieldKK w)⟩,
  ⟨0xF000, 0x7000, fun w => .addImm (fieldX w) (fieldKK w)⟩,
  ⟨0xF00F, 0x8000, fun w => .ldReg (fieldX w) (fieldY w)⟩,
  ⟨0xF00F, 0x8001, fun w => .orReg (fieldX w) (fieldY w)⟩,
  ⟨0xF00F, 0x8002, fun w => .andReg (fieldX w) (fieldY w)⟩,
  ⟨0xF00F, 0x8003, fun w => .xorReg (fieldX w) (fieldY w)⟩,
  ⟨0xF00F, 0x8004, fun w => .addReg (fieldX w) (fieldY w)⟩,
  ⟨0xF00F, 0x8005, fun w => .subReg (fieldX w) (fieldY w)⟩,
  ⟨0xF00F, 0x8006, fun w => .shr (fieldX w) (fieldY w)⟩,
  ⟨0xF00F, 0x8007, fun w => .subn (fieldX w) (fieldY w)⟩,
  ⟨0xF00F, 0x800E, fun w => .shl (fieldX w) (fieldY w)⟩,
  ⟨0xF000, 0xC000, fun w => .rnd (fieldX w) (fieldKK w)⟩]

/-- The rows of R63 in classes A, D, E and F. -/
def rowsMisc : List Row := [
  ⟨0xF000, 0xA000, fun w => .ldI (fieldNNN w)⟩,
  ⟨0xF000, 0xD000, fun w => .drw (fieldX w) (fieldY w) (fieldN w)⟩,
  ⟨0xF0FF, 0xE09E, fun w => .skp (fieldX w)⟩,
  ⟨0xF0FF, 0xE0A1, fun w => .sknp (fieldX w)⟩,
  ⟨0xF0FF, 0xF007, fun w => .ldVxDt (fieldX w)⟩,
  ⟨0xF0FF, 0xF00A, fun w => .ldVxK (fieldX w)⟩,
  ⟨0xF0FF, 0xF015, fun w => .ldDtVx (fieldX w)⟩,
  ⟨0xF0FF, 0xF018, fun w => .ldStVx (fieldX w)⟩,
  ⟨0xF0FF, 0xF01E, fun w => .addIVx (fieldX w)⟩,
  ⟨0xF0FF, 0xF029, fun w => .ldFVx (fieldX w)⟩,
  ⟨0xF0FF, 0xF033, fun w => .ldBVx (fieldX w)⟩,
  ⟨0xF0FF, 0xF055, fun w => .ldMemVx (fieldX w)⟩,
  ⟨0xF0FF, 0xF065, fun w => .ldVxMem (fieldX w)⟩]

/-- The 34 instruction rows of R63. -/
def opcodeRows : List Row := rowsFlow ++ rowsAlu ++ rowsMisc

/-- `decode` of R66: total on words. 0x0000 is no instruction but the halt word (R64); a word that no
row covers is unknown (R65). -/
def decode (w : Word) : Instr :=
  if w = 0x0000 then .halt
  else match opcodeRows.find? (·.covers w) with
    | some r => r.descriptor w
    | none => .unknown w

/-! ### Bytes (R47, R71) -/

/-- The word that two bytes spell, the byte at the lower address first (R47). -/
def bytesWord (hi lo : Byte) : Word := (hi.setWidth 16 <<< 8) ||| lo.setWidth 16

/-- The two bytes of a word in memory order (R47). -/
def wordBytes (w : Word) : List Byte := [w.extractLsb' 8 8, w.extractLsb' 0 8]

/-- Why a list of bytes is no instruction. -/
inductive DecodeError where
  /-- Fewer than two bytes (R71: a decoder always consumes exactly 2 bytes). -/
  | truncated
deriving DecidableEq, Repr

/-- The instruction at the front of a list of bytes, and the bytes after it (R71). -/
def decodeBytes : List Byte → Except DecodeError (Instr × List Byte)
  | hi :: lo :: rest => .ok (decode (bytesWord hi lo), rest)
  | [_] => .error .truncated
  | [] => .error .truncated

/-! ### The encoder -/

/-- A register number at bits 11:8. -/
def placeX (x : RegIdx) : Word := BitVec.ofNat 16 x.val <<< 8

/-- A register number at bits 7:4. -/
def placeY (y : RegIdx) : Word := BitVec.ofNat 16 y.val <<< 4

/-- A row count at bits 3:0. -/
def placeN (n : Fin 16) : Word := BitVec.ofNat 16 n.val

/-- A byte at bits 7:0. -/
def placeKK (kk : Byte) : Word := kk.setWidth 16

/-- An address at bits 11:0. -/
def placeNNN (nnn : Addr) : Word := nnn.setWidth 16

/-- The word of an instruction: the row's match value with each field at its place, as the
"Encoding" line of the instruction's rule says. A field the row does not name is 0. -/
def encode : Instr → Word
  | .halt => 0x0000
  | .cls => 0x00E0
  | .ret => 0x00EE
  | .jp nnn => 0x1000 ||| placeNNN nnn
  | .call nnn => 0x2000 ||| placeNNN nnn
  | .seImm x kk => 0x3000 ||| placeX x ||| placeKK kk
  | .sneImm x kk => 0x4000 ||| placeX x ||| placeKK kk
  | .seReg x y => 0x5000 ||| placeX x ||| placeY y
  | .ldImm x kk => 0x6000 ||| placeX x ||| placeKK kk
  | .addImm x kk => 0x7000 ||| placeX x ||| placeKK kk
  | .ldReg x y => 0x8000 ||| placeX x ||| placeY y
  | .orReg x y => 0x8001 ||| placeX x ||| placeY y
  | .andReg x y => 0x8002 ||| placeX x ||| placeY y
  | .xorReg x y => 0x8003 ||| placeX x ||| placeY y
  | .addReg x y => 0x8004 ||| placeX x ||| placeY y
  | .subReg x y => 0x8005 ||| placeX x ||| placeY y
  | .shr x y => 0x8006 ||| placeX x ||| placeY y
  | .subn x y => 0x8007 ||| placeX x ||| placeY y
  | .shl x y => 0x800E ||| placeX x ||| placeY y
  | .sneReg x y => 0x9000 ||| placeX x ||| placeY y
  | .ldI nnn => 0xA000 ||| placeNNN nnn
  | .jpV0 nnn => 0xB000 ||| placeNNN nnn
  | .rnd x kk => 0xC000 ||| placeX x ||| placeKK kk
  | .drw x y n => 0xD000 ||| placeX x ||| placeY y ||| placeN n
  | .skp x => 0xE09E ||| placeX x
  | .sknp x => 0xE0A1 ||| placeX x
  | .ldVxDt x => 0xF007 ||| placeX x
  | .ldVxK x => 0xF00A ||| placeX x
  | .ldDtVx x => 0xF015 ||| placeX x
  | .ldStVx x => 0xF018 ||| placeX x
  | .addIVx x => 0xF01E ||| placeX x
  | .ldFVx x => 0xF029 ||| placeX x
  | .ldBVx x => 0xF033 ||| placeX x
  | .ldMemVx x => 0xF055 ||| placeX x
  | .ldVxMem x => 0xF065 ||| placeX x
  | .unknown w => w

/-- The bytes of an instruction as memory holds them. -/
def encodeBytes (i : Instr) : List Byte := wordBytes (encode i)

/-- The instruction the decoder reads from the word `w` of `nbits` bits, bit 0 its least significant
(R8). Every row of the table is one 16-bit word (R60); a longer row does not exist (R71). -/
def decodeTableWord (nbits w : Nat) : Option Instr :=
  if nbits ≤ 16 then
    match decodeBytes (wordBytes (BitVec.ofNat 16 (w % 2 ^ nbits))) with
    | .ok (i, _) => some i
    | .error _ => none
  else none

end Sys2Proof
end

