-- ==== Sys2Proof/Config.lean ====
section
/-! DEFINITION. What an implementation of the core fixes, and the free values: the parameters of
00_scope.md R7. Their default values are in Machine/Params.lean. -/

namespace Sys2Proof

/-- The parameters `FONT_BASE` and `FONT_GLYPHS` of R7. They are fixed for the life of a machine
(log entry 1). -/
structure Config where
  /-- `FONT_BASE`: the address of glyph 0. -/
  fontBase   : Word
  /-- `FONT_GLYPHS`: the 80 bytes of the 16 glyphs, digit 0 first, top row first. -/
  fontGlyphs : Vector Byte 80
deriving DecidableEq, Repr

/-- The bound R7 puts on `FONT_BASE`: the font table lies below 0x200. -/
abbrev Config.wf (c : Config) : Prop := c.fontBase.toNat + 80 ≤ 0x200

/-- The parameter `RNG` of R7: the byte that the `n`-th draw gives. A FREE VALUE (R110, I2 of
93_implementation_defined.md): nothing is known of it (log entry 3). -/
opaque Config.randomByte : Nat → Byte

end Sys2Proof
end

