-- ==== Sys2Proof/Machine/Params.lean ====
section
/-! DEFINITION. The sizes of 00_scope.md R6 that are not types, and the default values of the
parameters of R7. -/

namespace Sys2Proof.Machine

/-- `PROGRAM_BASE`: the load address and the initial pc (R6, R25). -/
def programBase : Word := 0x200

/-- The largest address an instruction may be fetched from (R24, 90_conflicts.md C11). -/
def lastFetch : Word := 0xFFE

/-- `MAX_PROGRAM`: the largest loadable program, 4096 − 0x200 bytes (R6, R128). -/
def maxProgram : Nat := 4096 - 0x200

/-- The default `FONT_BASE` (R7, 92_eei_decisions.md D9). DESIGN CHOICE of the spec: the source gives
only an example region. Unsafe for claims about this value, log entry 1. -/
def defaultFontBase : Word := 0x000

/-- The default `FONT_GLYPHS` (R36, 92_eei_decisions.md D10). PRESUMED: the table is general knowledge
and not the source's. Unsafe for claims about these bytes, log entry 2. -/
def defaultGlyphs : Vector Byte 80 := #v[
  0xF0, 0x90, 0x90, 0x90, 0xF0,  0x20, 0x60, 0x20, 0x20, 0x70,
  0xF0, 0x10, 0xF0, 0x80, 0xF0,  0xF0, 0x10, 0xF0, 0x10, 0xF0,
  0x90, 0x90, 0xF0, 0x10, 0x10,  0xF0, 0x80, 0xF0, 0x10, 0xF0,
  0xF0, 0x80, 0xF0, 0x90, 0xF0,  0xF0, 0x10, 0x20, 0x40, 0x40,
  0xF0, 0x90, 0xF0, 0x90, 0xF0,  0xF0, 0x90, 0xF0, 0x10, 0xF0,
  0xF0, 0x90, 0xF0, 0x90, 0x90,  0xE0, 0x90, 0xE0, 0x90, 0xE0,
  0xF0, 0x80, 0x80, 0x80, 0xF0,  0xE0, 0x90, 0x90, 0x90, 0xE0,
  0xF0, 0x80, 0xF0, 0x80, 0xF0,  0xF0, 0x80, 0xF0, 0x80, 0x80]

/-- The parameters at their defaults (R7). -/
def defaultConfig : Config := { fontBase := defaultFontBase, fontGlyphs := defaultGlyphs }

/-- What a byte of memory holds after initialization (R37): the font table at `FONT_BASE`, 0x00
everywhere else. This is also what an address that the memory list does not name reads as. -/
def resetByte (c : Config) (a : Nat) : Byte :=
  if h : c.fontBase.toNat ≤ a ∧ a - c.fontBase.toNat < 80 then
    c.fontGlyphs[a - c.fontBase.toNat]'h.2
  else 0x00

end Sys2Proof.Machine
end

