-- ==== Sys2Proof/Machine/Flags.lean ====
section
/-! DEFINITION. The flag computations: every value an instruction writes to VF as a flag
(10_state.md R21, 42_alu.md R98, R105–R109, 44_display.md R118). -/

namespace Sys2Proof.Machine

/-- A flag as the byte 1 or 0 that VF takes. -/
def flagByte (f : Bool) : Byte := if f then 1 else 0

/-- Carry of 8xy4: the true sum exceeds 255 (R105). -/
def carryFlag (a b : Byte) : Byte := flagByte (a.toNat + b.toNat > 255)

/-- No-borrow of `a − b`, non-strict: `a ≥ b` (R106, R108, 90_conflicts.md C6). -/
def noBorrowFlag (a b : Byte) : Byte := flagByte (a.toNat ≥ b.toNat)

/-- The bit that a right shift by one puts out: old bit 0 (R107). -/
def lowBitFlag (a : Byte) : Byte := a &&& 1

/-- The bit that a left shift by one puts out: old bit 7 (R109). -/
def highBitFlag (a : Byte) : Byte := (a >>> 7) &&& 1

end Sys2Proof.Machine
end

