-- ==== Sys2Proof/Machine/Operands.lean ====
section
/-! DEFINITION. The operand forms of the core: how immediates are widened (30_encoding.md R62), how
addresses are formed from I (20_memory.md R46), and how a register's value names a glyph, a key or a
screen coordinate. -/

namespace Sys2Proof.Machine

/-- `zext_16` of a register value (00_scope.md R9). -/
def zextByte (b : Byte) : Word := b.setWidth 16

/-- `zext_16` of a 12-bit address (00_scope.md R9, 30_encoding.md R62). -/
def zextAddr (a : Addr) : Word := a.setWidth 16

/-- `mask12`: the low 12 bits of a word, as an address (00_scope.md R9). -/
def mask12 (a : Word) : Addr := a.setWidth 12

/-- The data address `mask12(I + k)` (20_memory.md R46). -/
def dataAddr (i : Word) (k : Nat) : Addr := mask12 (i + BitVec.ofNat 16 k)

/-- `FONT_BASE + 5 * d` for the digit `d = v AND 0xF` (43_index_memory.md R113). -/
def glyphAddr (fontBase : Word) (v : Byte) : Word := fontBase + 5 * zextByte (v &&& 0x0F)

/-- The key a register value names: none above 0xF (45_timers_keys.md R121). -/
def keyNumber (v : Byte) : Option KeyIdx :=
  if h : v.toNat < 16 then some ⟨v.toNat, h⟩ else none

/-- The column `(x0 + c) mod 64` (44_display.md R118). -/
def wrapCol (x0 : Byte) (c : Nat) : Fin 64 := Fin.ofNat 64 (x0.toNat + c)

/-- The row `(y0 + r) mod 32` (44_display.md R118). -/
def wrapRow (y0 : Byte) (r : Nat) : Fin 32 := Fin.ofNat 32 (y0.toNat + r)

/-- Pixel `c` of a sprite row, most significant bit first: `(b >> (7 - c)) AND 1 == 1`
(44_display.md R118). -/
def spriteBit (b : Byte) (c : Nat) : Bool := (b >>> (7 - c)) &&& 1 == 1

/-- The decimal digits of a byte, hundreds, tens, units (43_index_memory.md R114). -/
def hundreds (v : Byte) : Byte := BitVec.ofNat 8 (v.toNat / 100)

@[inherit_doc hundreds]
def tens (v : Byte) : Byte := BitVec.ofNat 8 (v.toNat / 10 % 10)

@[inherit_doc hundreds]
def units (v : Byte) : Byte := BitVec.ofNat 8 (v.toNat % 10)

end Sys2Proof.Machine
end

