-- ==== Sys2Proof/Machine/State.lean ====
section
/-! DEFINITION. The architectural state of the core (10_state.md), the reasons a step can stop, and
the state after machine initialization (70_reset_and_hazards.md R150). -/

namespace Sys2Proof.Machine

/-- The fatal errors of 60_exceptions.md R127. Entering one is a NEXT state, with Status = Faulted(E)
and nothing else changed (40_cycle.md R78, R84). `step` answers `Outcome.fault e` only in a core that
is already Faulted(e), where it changes nothing (R75). Safe: the machine stops where the spec's core
stops (log entry 4). -/
inductive Fault where
  /-- E2, entered by 2nnn (CALL) when SP = 16 (R129). Safe. -/
  | stackOverflow
  /-- E3, entered by 00EE (RET) when SP = 0 (R130). Safe. -/
  | stackUnderflow
  /-- E5, entered by the fetch when pc is odd, below 0x200 or above 0xFFE (R132). Safe. -/
  | fetchOutOfRange
  /-- E6, entered by Ex9E and ExA1 when V[x] > 0x0F (R133). Safe. -/
  | keyIndexOutOfRange
deriving DecidableEq, Repr

/-- Why the model has no meaning to give. -/
inductive Refusal where
  /-- Raised by an arm of `exec` whose instruction has no meaning yet. No arm raises it in this
  model. Safe. -/
  | notModelled (mnemonic : String)
deriving DecidableEq, Repr

/-- `Status` of 10_state.md R42. -/
inductive Status where
  /-- The next step fetches and executes an instruction. -/
  | running
  /-- An Fx0A is suspended and will write `V[x]` (R124). -/
  | waiting (x : RegIdx)
  /-- The fatal error `e` was raised; execution cannot go on (R75). -/
  | faulted (e : Fault)
deriving DecidableEq, Repr

/-- The bytes of memory that differ from the reset contents, as (address, byte) pairs in the canonical
form of `Memory.wf` (log entry 5). -/
abbrev Memory := List Host.Cell

/-- The grid `FB[row][col]`: 32 rows of 64 one-bit cells (R40). -/
abbrev Framebuffer := Vector (Vector Bool 64) 32

/-- The state of the core: 10_state.md R20–R43, and two fields of the model's own (`cfg`,
`rngDraws`). -/
structure State where
  /-- `V[0]`–`V[15]` (R20); `V[15]` is VF, the only flag (R21). -/
  v          : Vector Byte 16
  /-- The index register I (R30). -/
  i          : Word
  /-- The program counter (R23). -/
  pc         : Word
  /-- `Stack[0..15]` (R26). -/
  stack      : Vector Word 16
  /-- `SP`, the number of live stack entries, 0 to 16 (R26). -/
  sp         : Fin 17
  /-- The delay timer (R32). -/
  dt         : Byte
  /-- The sound timer (R33). -/
  st         : Byte
  /-- Memory (R35). -/
  mem        : Memory
  /-- `Key[0x0..0xF]`, true meaning pressed (R38). -/
  key        : Vector Bool 16
  /-- The framebuffer (R40). -/
  fb         : Framebuffer
  /-- Running, Waiting(x) or Faulted(E) (R42). -/
  status     : Status
  /-- The key latched for a suspended Fx0A, if any (R42). -/
  latchedKey : Option KeyIdx
  /-- The parameters FONT_BASE and FONT_GLYPHS (00_scope.md R7). The model's own field: fixed at
  initialization, written by nothing (log entry 1). -/
  cfg        : Config
  /-- How many random bytes have been drawn. The model's own field: it indexes the free value
  `Config.randomByte` (log entry 3). -/
  rngDraws   : Nat
deriving DecidableEq, Repr

/-- Machine initialization (R150) with given parameters: registers, stack and timers zeroed, pc at
0x200, memory at its reset contents (nothing listed), keys released, framebuffer clear, Running,
nothing latched (R22, R25, R29, R31, R34, R37, R39, R41, R43). The spec's decision D13 gives the
values the source does not state (log entry 6). `rngDraws := 0` is a DESIGN CHOICE (log entry 3). -/
def State.init (cfg : Config) : State where
  v          := Vector.replicate 16 0x00
  i          := 0x0000
  pc         := programBase
  stack      := Vector.replicate 16 0x0000
  sp         := 0
  dt         := 0x00
  st         := 0x00
  mem        := []
  key        := Vector.replicate 16 false
  fb         := Vector.replicate 32 (Vector.replicate 64 false)
  status     := .running
  latchedKey := none
  cfg        := cfg
  rngDraws   := 0

/-- The initialized machine (R150) with the default parameters of R7. -/
def State.reset : State := State.init defaultConfig

end Sys2Proof.Machine
end

