-- ==== Sys2Proof/Machine/Ops.lean ====
section
/-! DEFINITION. The shared operations over memory, registers, the stack, the framebuffer and the
keypad, and the one operation that enters a fatal error. Every meaning is written over these. -/

namespace Sys2Proof.Machine

/-! ### Memory (20_memory.md)

`dflt` is what an address reads as that the list does not name: `resetByte` of the machine's
parameters. -/

/-- The byte at `a`: the first entry for `a`, else the reset contents. -/
def Memory.read (dflt : Nat → Byte) : Memory → Nat → Byte
  | [], a => dflt a
  | c :: m, a => if c.1 = a then c.2 else Memory.read dflt m a

/-- The list with an entry for `a` put before the first higher address. -/
def Memory.insert : Memory → Nat → Byte → Memory
  | [], a, b => [(a, b)]
  | c :: m, a, b => if c.1 < a then c :: Memory.insert m a b else (a, b) :: c :: m

/-- The list without an entry for `a`. -/
def Memory.erase (m : Memory) (a : Nat) : Memory := m.filter (fun c => c.1 != a)

/-- Memory after the byte at `a` has become `b`; writing what an unlisted address reads as removes the
entry, so that equal memories are equal lists. -/
def Memory.write (dflt : Nat → Byte) (m : Memory) (a : Nat) (b : Byte) : Memory :=
  if b = dflt a then m.erase a else Memory.insert (m.erase a) a b

/-- The canonical form: addresses strictly rising and inside the 4096-byte space, no entry equal to
what an unlisted address reads as. -/
abbrev Memory.wf (dflt : Nat → Byte) (m : Memory) : Prop :=
  m.Pairwise (fun c d => c.1 < d.1) ∧ ∀ c ∈ m, c.1 < 4096 ∧ c.2 ≠ dflt c.1

/-- `MemRead(a, 1)` (00_scope.md R10). A 12-bit address is always inside the space (R44). -/
def State.readMem (s : State) (a : Addr) : Byte :=
  Memory.read (resetByte s.cfg) s.mem a.toNat

/-- `MemWrite(a, 1, b)` (00_scope.md R10). No address is protected (R51). -/
def State.writeMem (s : State) (a : Addr) (b : Byte) : State :=
  { s with mem := Memory.write (resetByte s.cfg) s.mem a.toNat b }

/-! ### Registers and timers -/

/-- `V[x]` (10_state.md R20). -/
def State.readV (s : State) (x : RegIdx) : Byte := s.v[x.val]

/-- `V[x] <- b` (10_state.md R20). -/
def State.writeV (s : State) (x : RegIdx) (b : Byte) : State := { s with v := s.v.set x.val b }

/-- `V[x] <- r` and then `V[15] <- flag`, the flag last (00_scope.md R10, 10_state.md R21). -/
def State.writeVFlag (s : State) (x : RegIdx) (r flag : Byte) : State :=
  (s.writeV x r).writeV 15 flag

/-- `I <- a`. -/
def State.setI (s : State) (a : Word) : State := { s with i := a }

/-- `pc <- a`. -/
def State.setPc (s : State) (a : Word) : State := { s with pc := a }

/-- A skip if `c`: `pc <- pc + 2` (41_flow.md R88). -/
def State.skipIf (s : State) (c : Bool) : State := if c then s.setPc (s.pc + 2) else s

/-- `DT <- b`. -/
def State.setDt (s : State) (b : Byte) : State := { s with dt := b }

/-- `ST <- b`. -/
def State.setSt (s : State) (b : Byte) : State := { s with st := b }

/-- One draw from the random source has been taken (R110, log entry 3). -/
def State.countDraw (s : State) : State := { s with rngDraws := s.rngDraws + 1 }

/-! ### The call stack (10_state.md R26–R28) -/

/-- `Stack[j]`. -/
def State.stackAt (s : State) (j : Fin 16) : Word := s.stack[j.val]

/-- `Push(a)` (R27): none is StackOverflow, and nothing is written. -/
def State.push (s : State) (a : Word) : Option State :=
  if h : s.sp.val < 16 then
    some { s with stack := s.stack.set s.sp.val a, sp := ⟨s.sp.val + 1, by omega⟩ }
  else none

/-- `Pop()` (R27): the popped value and the state after; none is StackUnderflow. The entry keeps its
value (R28). -/
def State.pop (s : State) : Option (Word × State) :=
  if h : 0 < s.sp.val then
    some (s.stack[s.sp.val - 1]'(by omega), { s with sp := ⟨s.sp.val - 1, by omega⟩ })
  else none

/-! ### The framebuffer (10_state.md R40) -/

/-- `FB[row][col]`. -/
def Framebuffer.pixel (fb : Framebuffer) (row : Fin 32) (col : Fin 64) : Bool :=
  fb[row.val][col.val]

/-- `FB[row][col] <- FB[row][col] XOR 1`. -/
def Framebuffer.flip (fb : Framebuffer) (row : Fin 32) (col : Fin 64) : Framebuffer :=
  fb.set row.val (fb[row.val].set col.val (!fb[row.val][col.val]))

/-- The framebuffer with every cell 0 (44_display.md R117). -/
def clearFramebuffer : Framebuffer := Vector.replicate 32 (Vector.replicate 64 false)

/-- `FB <- fb`. -/
def State.setFb (s : State) (fb : Framebuffer) : State := { s with fb := fb }

/-! ### Keypad, status and latch (10_state.md R38, R42) -/

/-- `Key[k]`. -/
def State.keyAt (s : State) (k : KeyIdx) : Bool := s.key[k.val]

/-- `Key[k] <- p`; only the host's `set_key` does this (R38). -/
def State.setKeyAt (s : State) (k : KeyIdx) (p : Bool) : State :=
  { s with key := s.key.set k.val p }

/-- `Status <- q`. -/
def State.setStatus (s : State) (q : Status) : State := { s with status := q }

/-- `LatchedKey <- l`. -/
def State.setLatch (s : State) (l : Option KeyIdx) : State := { s with latchedKey := l }

/-! ### Fetch (40_cycle.md R78–R80) -/

/-- The legal-fetch check: even, and in [0x200, 0xFFE] (R78, 10_state.md R24). -/
def fetchLegal (p : Word) : Bool :=
  p &&& 1 == 0 && programBase.toNat ≤ p.toNat && p.toNat ≤ lastFetch.toNat

/-- The big-endian word at pc (R79, 20_memory.md R47). Both addresses are below 0x1000 when the fetch
is legal, so `mask12` changes nothing there. -/
def State.fetchWord (s : State) : Word :=
  bytesWord (s.readMem (mask12 s.pc)) (s.readMem (mask12 (s.pc + 1)))

/-- The state the execute phase of the word `w` sees: pc advanced by 2 (R80), but not for the halt
word (R81). -/
def State.afterFetch (s : State) (w : Word) : State :=
  if w = 0x0000 then s else s.setPc (s.pc + 2)

/-! ### Fatal errors (60_exceptions.md R127, R134) -/

/-- Taking a fatal error: `Status <- Faulted(e)` and nothing else (R134: no vector, no saved register,
no mode; R136: there is no return from it). The fetch check enters FetchOutOfRange with this, before
pc has moved (40_cycle.md R78). -/
def State.enterFault (s : State) (e : Fault) : State := s.setStatus (.faulted e)

/-- Taking a fatal error in the execute phase (40_cycle.md R84): the step's one change so far, the pc
advance of R80, is undone, and the error entered. DEDUCED: each check comes before its instruction's
first write, so nothing else is there to undo (log entry 7). -/
def State.raiseFatal (s : State) (e : Fault) : State := (s.setPc (s.pc - 2)).enterFault e

end Sys2Proof.Machine
end

