-- ==== Sys2Proof/Machine/Alu.lean ====
section
/-! DEFINITION. Register loads, arithmetic, logic and random (42_alu.md R98–R110). -/

namespace Sys2Proof.Machine

/-- LD Vx, kk (R99). -/
def execLdImm (x : RegIdx) (kk : Byte) (s : State) : Host.Outcome State Fault Refusal :=
  .next (s.writeV x kk)

/-- ADD Vx, kk (R100): no carry is written. -/
def execAddImm (x : RegIdx) (kk : Byte) (s : State) : Host.Outcome State Fault Refusal :=
  .next (s.writeV x (s.readV x + kk))

/-- LD Vx, Vy (R101). -/
def execLdReg (x y : RegIdx) (s : State) : Host.Outcome State Fault Refusal :=
  .next (s.writeV x (s.readV y))

/-- OR Vx, Vy (R102): VF is not reset. -/
def execOrReg (x y : RegIdx) (s : State) : Host.Outcome State Fault Refusal :=
  .next (s.writeV x (s.readV x ||| s.readV y))

/-- AND Vx, Vy (R103). -/
def execAndReg (x y : RegIdx) (s : State) : Host.Outcome State Fault Refusal :=
  .next (s.writeV x (s.readV x &&& s.readV y))

/-- XOR Vx, Vy (R104). -/
def execXorReg (x y : RegIdx) (s : State) : Host.Outcome State Fault Refusal :=
  .next (s.writeV x (s.readV x ^^^ s.readV y))

/-- ADD Vx, Vy (R105): VF is the carry. -/
def execAddReg (x y : RegIdx) (s : State) : Host.Outcome State Fault Refusal :=
  .next (s.writeVFlag x (s.readV x + s.readV y) (carryFlag (s.readV x) (s.readV y)))

/-- SUB Vx, Vy (R106): VF is the no-borrow of Vx − Vy. -/
def execSubReg (x y : RegIdx) (s : State) : Host.Outcome State Fault Refusal :=
  .next (s.writeVFlag x (s.readV x - s.readV y) (noBorrowFlag (s.readV x) (s.readV y)))

/-- SHR Vx (R107): the y field is ignored (30_encoding.md R69). -/
def execShr (x _y : RegIdx) (s : State) : Host.Outcome State Fault Refusal :=
  .next (s.writeVFlag x (s.readV x >>> 1) (lowBitFlag (s.readV x)))

/-- SUBN Vx, Vy (R108): VF is the no-borrow of Vy − Vx. -/
def execSubn (x y : RegIdx) (s : State) : Host.Outcome State Fault Refusal :=
  .next (s.writeVFlag x (s.readV y - s.readV x) (noBorrowFlag (s.readV y) (s.readV x)))

/-- SHL Vx (R109): the y field is ignored (30_encoding.md R69). -/
def execShl (x _y : RegIdx) (s : State) : Host.Outcome State Fault Refusal :=
  .next (s.writeVFlag x (s.readV x <<< 1) (highBitFlag (s.readV x)))

/-- The effect of RND once the draw is `r`: `V[x] <- r AND kk` (R110), and the draw is counted. -/
def State.takeRandom (s : State) (r : Byte) (x : RegIdx) (kk : Byte) : State :=
  (s.writeV x (r &&& kk)).countDraw

/-- RND Vx, kk (R110): one draw, a free value (log entry 3). -/
def execRnd (x : RegIdx) (kk : Byte) (s : State) : Host.Outcome State Fault Refusal :=
  .next (s.takeRandom (Config.randomByte s.rngDraws) x kk)

end Sys2Proof.Machine
end

