-- ==== Sys2Proof/Machine/Cycle.lean ====
section
/-! DEFINITION. The two words of the table that are no instruction: the halt word and the unknown
words (40_cycle.md R81, R83). -/

namespace Sys2Proof.Machine

/-- 0000 (R81): the step returns Halted and changes no state. -/
def execHalt (s : State) : Host.Outcome State Fault Refusal := .next s

/-- An unknown word (R83): the execute phase does nothing, whatever the word. -/
def execUnknown (_w : Word) (s : State) : Host.Outcome State Fault Refusal := .next s

end Sys2Proof.Machine
end

