-- ==== Sys2Proof/Machine/Display.lean ====
section
/-! DEFINITION. Framebuffer clear and sprite drawing (44_display.md R117–R120). -/

namespace Sys2Proof.Machine

/-- CLS (R117). -/
def execCls (s : State) : Host.Outcome State Fault Refusal := .next (s.setFb clearFramebuffer)

/-- A drawing under way: the framebuffer so far, and whether a set cell has become unset. -/
structure Drawing where
  fb        : Framebuffer
  collision : Bool
deriving DecidableEq, Repr

/-- The inner step of R118's loop: one set sprite bit at a cell. -/
def drawBit (row : Fin 32) (col : Fin 64) (d : Drawing) : Drawing :=
  { fb := d.fb.flip row col, collision := d.collision || d.fb.pixel row col }

/-- Row `r` of the sprite, the byte `b`, at coordinates `(x0, y0)` (R118). -/
def drawRow (x0 y0 : Byte) (r : Nat) (b : Byte) (d : Drawing) : Drawing :=
  (List.range 8).foldl
    (fun d c => if spriteBit b c then drawBit (wrapRow y0 r) (wrapCol x0 c) d else d) d

/-- The `n` rows at I, at coordinates `(x0, y0)` (R118). -/
def State.drawSprite (s : State) (x0 y0 : Byte) (n : Nat) : Drawing :=
  (List.range n).foldl (fun d r => drawRow x0 y0 r (s.readMem (dataAddr s.i r)) d)
    { fb := s.fb, collision := false }

/-- The framebuffer and the collision flag of a drawing, the flag last (R118). -/
def State.finishDrawing (s : State) (d : Drawing) : State :=
  (s.setFb d.fb).writeV 15 (flagByte d.collision)

/-- DRW Vx, Vy, n (R118): the coordinates are read before VF is written; n = 0 draws nothing and
clears VF (R120). -/
def execDrw (x y : RegIdx) (n : Fin 16) (s : State) : Host.Outcome State Fault Refusal :=
  .next (s.finishDrawing (s.drawSprite (s.readV x) (s.readV y) n.val))

end Sys2Proof.Machine
end

