-- ==== Sys2Proof/Machine/IndexMemory.lean ====
section
/-! DEFINITION. The index register and memory transfer (43_index_memory.md R111–R116). -/

namespace Sys2Proof.Machine

/-- LD I, nnn (R111). -/
def execLdI (nnn : Addr) (s : State) : Host.Outcome State Fault Refusal :=
  .next (s.setI (zextAddr nnn))

/-- ADD I, Vx (R112): a 12-bit sum, no flag. -/
def execAddIVx (x : RegIdx) (s : State) : Host.Outcome State Fault Refusal :=
  .next (s.setI (zextAddr (mask12 (s.i + zextByte (s.readV x)))))

/-- LD F, Vx (R113): the glyph of the low nibble. -/
def execLdFVx (x : RegIdx) (s : State) : Host.Outcome State Fault Refusal :=
  .next (s.setI (glyphAddr s.cfg.fontBase (s.readV x)))

/-- LD B, Vx (R114): three decimal digits at I, I + 1, I + 2. -/
def execLdBVx (x : RegIdx) (s : State) : Host.Outcome State Fault Refusal :=
  .next (((s.writeMem (dataAddr s.i 0) (hundreds (s.readV x))).writeMem
    (dataAddr s.i 1) (tens (s.readV x))).writeMem
    (dataAddr s.i 2) (units (s.readV x)))

/-- `V[0]` to `V[n-1]` stored at I and up (R115). -/
def State.storeRegs (s : State) (n : Nat) : State :=
  (List.range n).foldl (fun t k => t.writeMem (dataAddr s.i k) (s.readV (Fin.ofNat 16 k))) s

/-- `V[0]` to `V[n-1]` loaded from I and up (R116). -/
def State.loadRegs (s : State) (n : Nat) : State :=
  (List.range n).foldl (fun t k => t.writeV (Fin.ofNat 16 k) (s.readMem (dataAddr s.i k))) s

/-- LD [I], Vx (R115): V0 to Vx inclusive; I is unchanged. -/
def execLdMemVx (x : RegIdx) (s : State) : Host.Outcome State Fault Refusal :=
  .next (s.storeRegs (x.val + 1))

/-- LD Vx, [I] (R116): V0 to Vx inclusive; I is unchanged. -/
def execLdVxMem (x : RegIdx) (s : State) : Host.Outcome State Fault Refusal :=
  .next (s.loadRegs (x.val + 1))

end Sys2Proof.Machine
end

