-- ==== Sys2Proof/Machine/KeysTimers.lean ====
section
/-! DEFINITION. Keypad and timer instructions (45_timers_keys.md R121–R126), and the step of a core
that waits for a key (40_cycle.md R76, R77). -/

namespace Sys2Proof.Machine

/-- SKP Vx (R121). -/
def execSkp (x : RegIdx) (s : State) : Host.Outcome State Fault Refusal :=
  match keyNumber (s.readV x) with
  | some k => .next (s.skipIf (s.keyAt k))
  | none => .next (s.raiseFatal .keyIndexOutOfRange)

/-- SKNP Vx (R122). -/
def execSknp (x : RegIdx) (s : State) : Host.Outcome State Fault Refusal :=
  match keyNumber (s.readV x) with
  | some k => .next (s.skipIf (!s.keyAt k))
  | none => .next (s.raiseFatal .keyIndexOutOfRange)

/-- LD Vx, DT (R123). -/
def execLdVxDt (x : RegIdx) (s : State) : Host.Outcome State Fault Refusal :=
  .next (s.writeV x s.dt)

/-- LD Vx, K (R124): the core suspends, even if a key is held; V[x] is not yet written. -/
def execLdVxK (x : RegIdx) (s : State) : Host.Outcome State Fault Refusal :=
  .next ((s.setStatus (.waiting x)).setLatch none)

/-- LD DT, Vx (R125). -/
def execLdDtVx (x : RegIdx) (s : State) : Host.Outcome State Fault Refusal :=
  .next (s.setDt (s.readV x))

/-- LD ST, Vx (R126). -/
def execLdStVx (x : RegIdx) (s : State) : Host.Outcome State Fault Refusal :=
  .next (s.setSt (s.readV x))

/-- The step of a core in `Waiting(x)`: without a latched key nothing changes (R76); with one, the
suspended Fx0A completes (R77). -/
def State.stepWaiting (s : State) (x : RegIdx) : State :=
  match s.latchedKey with
  | none => s
  | some k => ((s.writeV x (BitVec.ofNat 8 k.val)).setStatus .running).setLatch none

end Sys2Proof.Machine
end

