-- ==== Sys2Proof/Machine/Step.lean ====
section
/-! DEFINITION. The fetch-decode-execute cycle (40_cycle.md R86), and how a word is put where the
next fetch reads it. -/

namespace Sys2Proof.Machine

/-- `step` of R86: the checks in the order of 60_exceptions.md R135. A step that returns Executed,
Unknown, Halted or Waiting, or that enters a fatal error, answers the next state; the step of a core
that is Faulted(e) already changes nothing and answers the error (R75, log entry 4). What the step
returns to the host is `State.report`. -/
def step (s : State) : Host.Outcome State Fault Refusal :=
  match s.status with
  | .faulted e => .fault e
  | .waiting x => .next (s.stepWaiting x)
  | .running =>
    if fetchLegal s.pc then exec (decode s.fetchWord) (s.afterFetch s.fetchWord)
    else .next (s.enterFault .fetchOutOfRange)

/-- `s` with the word `w` of `nbits` bits stored, big-endian (R47), where the next step fetches: at pc
if pc is a legal fetch address, else at 0x200 with pc moved there; and Running, since no other status
fetches. At reset only the two bytes change (log entry 15). -/
def State.withFetchWord (s : State) (nbits w : Nat) : State :=
  let p := if fetchLegal s.pc then s.pc else programBase
  let word := BitVec.ofNat 16 (w % 2 ^ nbits)
  ((((s.setStatus .running).setPc p).writeMem (mask12 p) (word.extractLsb' 8 8)).writeMem
    (mask12 (p + 1)) (word.extractLsb' 0 8))

end Sys2Proof.Machine
end

