-- ==== Sys2Proof/Machine/Report.lean ====
section
/-! DEFINITION. What a step returns to the host beside the new state: the five outcomes of
40_cycle.md R74, the host API value of each, and the error kinds of 60_exceptions.md R127. -/

namespace Sys2Proof.Machine

/-- The outcomes of a step (R74). -/
inductive Report where
  /-- `Executed(d)`: the descriptor `d` was executed (R85). -/
  | executed (d : Instr)
  /-- `Unknown(w)`: executed as a no-op (R83). -/
  | unknown (w : Word)
  /-- `Halted`: the fetched word was 0x0000 (R81). -/
  | halted
  /-- `Waiting`: the Fx0A that will write V[x] is suspended (R76). -/
  | waiting (x : RegIdx)
  /-- `Fatal(e)` (R75, R78, R84). -/
  | fatal (e : Fault)
deriving DecidableEq, Repr

/-- The outcome of an execute phase of `d` that did not fail (R81, R83, R85). -/
def reportOf : Instr → Report
  | .halt => .halted
  | .unknown w => .unknown w
  | d => .executed d

/-- The outcome of the step at `s` (R86). None would be a step the model gives no meaning to. -/
def State.report (s : State) : Option Report :=
  match s.status with
  | .faulted e => some (.fatal e)
  | .waiting x =>
    match s.latchedKey with
    | none => some (.waiting x)
    | some _ => some (.executed (.ldVxK x))
  | .running =>
    if fetchLegal s.pc then
      match step s with
      | .next t =>
        match t.status with
        | .faulted e => some (.fatal e)
        | .running => some (reportOf (decode s.fetchWord))
        | .waiting _ => some (reportOf (decode s.fetchWord))
      | .fault e => some (.fatal e)
      | .refused _ => none
    else some (.fatal .fetchOutOfRange)

/-- The host API value `Result<Option<DecodedOpcode>, Error>` of an outcome (R74;
92_eei_decisions.md D20 for Waiting). -/
def Report.apiValue : Report → Except Fault (Option Instr)
  | .executed d => .ok (some d)
  | .unknown w => .ok (some (.unknown w))
  | .halted => .ok none
  | .waiting x => .ok (some (.ldVxK x))
  | .fatal e => .error e

/-- The error kinds E1 to E6 (R127). -/
inductive ErrorKind where
  | programTooLarge
  | stackOverflow
  | stackUnderflow
  | unknownOpcode
  | fetchOutOfRange
  | keyIndexOutOfRange
deriving DecidableEq, Repr

/-- The number in the label E1 to E6 (R127). -/
def ErrorKind.code : ErrorKind → Nat
  | .programTooLarge => 1
  | .stackOverflow => 2
  | .stackUnderflow => 3
  | .unknownOpcode => 4
  | .fetchOutOfRange => 5
  | .keyIndexOutOfRange => 6

/-- Whether the error is fatal: its `Fault`, if so (R127). -/
def ErrorKind.fatal : ErrorKind → Option Fault
  | .programTooLarge => none
  | .stackOverflow => some .stackOverflow
  | .stackUnderflow => some .stackUnderflow
  | .unknownOpcode => none
  | .fetchOutOfRange => some .fetchOutOfRange
  | .keyIndexOutOfRange => some .keyIndexOutOfRange

/-- The error a step reports, if any: a fatal one, or the non-fatal UnknownOpcode (R127, R131). -/
def Report.error : Report → Option ErrorKind
  | .executed _ => none
  | .unknown _ => some .unknownOpcode
  | .halted => none
  | .waiting _ => none
  | .fatal .stackOverflow => some .stackOverflow
  | .fatal .stackUnderflow => some .stackUnderflow
  | .fatal .fetchOutOfRange => some .fetchOutOfRange
  | .fatal .keyIndexOutOfRange => some .keyIndexOutOfRange

end Sys2Proof.Machine
end

