-- ==== Sys2Proof/Machine/Ports.lean ====
section
/-! DEFINITION. The host ports (60_exceptions.md R140–R145, 70_reset_and_hazards.md R152). Each runs
between two steps and is atomic (20_memory.md R54). -/

namespace Sys2Proof.Machine

/-- One tick of a timer: decremented by one, floored at zero (R140). -/
def tickDown (b : Byte) : Byte := if b.toNat > 0 then b - 1 else b

/-- `tick_timers()` (R140), in any status. -/
def State.tickTimers (s : State) : State := (s.setDt (tickDown s.dt)).setSt (tickDown s.st)

/-- Whether `set_key(k, p)` latches `k`: an Fx0A is suspended, nothing is latched yet, and the key goes
from released to pressed (R142). -/
def State.latches (s : State) (k : KeyIdx) (p : Bool) : Bool :=
  (match s.status with
    | .waiting _ => true
    | .running => false
    | .faulted _ => false)
  && s.latchedKey.isNone && p && !s.keyAt k

/-- `set_key(k, p)` (R142). -/
def State.setKey (s : State) (k : KeyIdx) (p : Bool) : State :=
  (if s.latches k p then s.setLatch (some k) else s).setKeyAt k p

/-- The image bytes written at `a`, `a + 1`, … (R152). -/
def State.writeBytes (s : State) : Nat → List Byte → State
  | _, [] => s
  | a, b :: bs => (s.writeMem (BitVec.ofNat 12 a) b).writeBytes (a + 1) bs

/-- `load_program(bytes)` (R152): the error ProgramTooLarge changes nothing (R128). -/
def State.loadProgram (s : State) (bytes : List Byte) : Except ErrorKind State :=
  if bytes.length > maxProgram then .error .programTooLarge
  else .ok (s.writeBytes programBase.toNat bytes)

/-- `framebuffer()` (R143): the grid, read-only. -/
def State.framebuffer (s : State) : Framebuffer := s.fb

/-- `sound_active()` (R144): `ST > 0`. -/
def State.soundActive (s : State) : Bool := s.st.toNat > 0

end Sys2Proof.Machine
end

