-- ==== Sys2Proof/Safety.lean ====
section
/-! DEFINITION. Runs of the core (40_cycle.md R87), what counts as a safe one, the invariant of every
reachable state, and the words in which statements say what an instruction leaves unchanged
(00_scope.md R11). -/

namespace Sys2Proof.Machine

/-! ### Runs: steps and host operations in any order (R87, 60_exceptions.md R145) -/

/-- One move of the core or of the host. -/
inductive Action where
  | step
  | tickTimers
  | setKey (k : KeyIdx) (p : Bool)
  | loadProgram (bytes : List Byte)
  | framebuffer
  | soundActive
deriving DecidableEq, Repr

/-- The state after one move. A step of a Faulted core changes nothing (40_cycle.md R75), nor does a
refused load (R128) or a read (R143, R144). -/
def State.act (s : State) : Action → State
  | .step =>
    match Sys2Proof.Machine.step s with
    | .next t => t
    | .fault _ => s
    | .refused _ => s
  | .tickTimers => s.tickTimers
  | .setKey k p => s.setKey k p
  | .loadProgram bytes =>
    match s.loadProgram bytes with
    | .ok t => t
    | .error _ => s
  | .framebuffer => s
  | .soundActive => s

/-- The state after a sequence of moves. -/
def State.run (s : State) (as : List Action) : State := as.foldl State.act s

/-- The run has ended: the next step returns Halted (R87). -/
def State.halted (s : State) : Prop := s.report = some .halted

/-- The run has failed: a fatal error was raised (R87). -/
def State.failed (s : State) : Prop := ∃ e, s.status = .faulted e

/-- A safe run: no fatal error is raised along it. -/
def State.safeRun (s : State) (as : List Action) : Prop := ¬ (s.run as).failed

/-! ### The invariant -/

/-- A return address that a CALL can save: even, 0x202 to 0x1000 (R80, R91). -/
abbrev returnAddress (a : Word) : Prop := a.toNat % 2 = 0 ∧ 0x202 ≤ a.toNat ∧ a.toNat ≤ 0x1000

/-- What every reachable state satisfies. -/
structure State.Inv (s : State) : Prop where
  /-- The bound of R7 on FONT_BASE. -/
  config : s.cfg.wf
  /-- Memory is in its canonical form. -/
  memory : Memory.wf (resetByte s.cfg) s.mem
  /-- `I <= 0xFFF` (10_state.md R30). -/
  index : s.i.toNat ≤ 0xFFF
  /-- pc is far from its 16-bit wrap (10_state.md R23; the largest target is that of R96). -/
  pcBound : s.pc.toNat ≤ 0x10FE
  /-- Every live stack entry is a return address (R91). -/
  returns : ∀ j : Fin 16, j.val < s.sp.val → returnAddress (s.stackAt j)
  /-- A key is latched only while an Fx0A is suspended (10_state.md R42). -/
  latch : s.latchedKey ≠ none → ∃ x, s.status = .waiting x

/-! ### What is unchanged -/

/-- Every V register but those listed is unchanged. -/
def SameV (but : List RegIdx) (s t : State) : Prop := ∀ r, r ∉ but → t.readV r = s.readV r

/-- Every byte of memory but those at the listed addresses is unchanged. -/
def SameMem (but : List Addr) (s t : State) : Prop := ∀ a, a ∉ but → t.readMem a = s.readMem a

/-- SP and every stack entry are unchanged. -/
def SameStack (s t : State) : Prop := t.sp = s.sp ∧ ∀ j, t.stackAt j = s.stackAt j

/-- Every framebuffer cell is unchanged. -/
def SameFb (s t : State) : Prop := ∀ row col, t.fb.pixel row col = s.fb.pixel row col

/-- The keypad, the timers, the status, the latch, and the two fields of the model's own are
unchanged: what no register, memory, flow or display instruction but RND touches. -/
structure SameRest (s t : State) : Prop where
  key    : ∀ k, t.keyAt k = s.keyAt k
  dt     : t.dt = s.dt
  st     : t.st = s.st
  status : t.status = s.status
  latch  : t.latchedKey = s.latchedKey
  cfg    : t.cfg = s.cfg
  draws  : t.rngDraws = s.rngDraws

/-! ### What a step fetches, and what an instruction may write -/

/-- The step at `s` fetches the word `w`: the core is Running, pc is even and in [0x200, 0xFFE]
(40_cycle.md R78), and `w` is the big-endian word at pc (R79). -/
structure Fetches (s : State) (w : Word) : Prop where
  running : s.status = .running
  even    : s.pc.toNat % 2 = 0
  low     : 0x200 ≤ s.pc.toNat
  high    : s.pc.toNat ≤ 0xFFE
  word    : w.toNat = 256 * (s.readMem (mask12 s.pc)).toNat + (s.readMem (mask12 (s.pc + 1))).toNat

/-- The execute phase of the instruction may write `V[r]`: the registers its rule names as written
(00_scope.md R11, 10_state.md R21). -/
def writesReg : Instr → RegIdx → Bool
  | .halt, _ => false
  | .cls, _ => false
  | .ret, _ => false
  | .jp _, _ => false
  | .call _, _ => false
  | .seImm _ _, _ => false
  | .sneImm _ _, _ => false
  | .seReg _ _, _ => false
  | .ldImm x _, r => r == x
  | .addImm x _, r => r == x
  | .ldReg x _, r => r == x
  | .orReg x _, r => r == x
  | .andReg x _, r => r == x
  | .xorReg x _, r => r == x
  | .addReg x _, r => r == x || r == 15
  | .subReg x _, r => r == x || r == 15
  | .shr x _, r => r == x || r == 15
  | .subn x _, r => r == x || r == 15
  | .shl x _, r => r == x || r == 15
  | .sneReg _ _, _ => false
  | .ldI _, _ => false
  | .jpV0 _, _ => false
  | .rnd x _, r => r == x
  | .drw _ _ _, r => r == 15
  | .skp _, _ => false
  | .sknp _, _ => false
  | .ldVxDt x, r => r == x
  | .ldVxK _, _ => false
  | .ldDtVx _, _ => false
  | .ldStVx _, _ => false
  | .addIVx _, _ => false
  | .ldFVx _, _ => false
  | .ldBVx _, _ => false
  | .ldMemVx _, _ => false
  | .ldVxMem x, r => decide (r ≤ x)
  | .unknown _, _ => false

/-! ### The picture a sprite makes -/

/-- The sprite of `n` rows at I lights the cell `(row, col)` when drawn at `(x0, y0)`: one of its set
bits lands there (44_display.md R118, R119). -/
def Lights (s : State) (x0 y0 : Byte) (n : Nat) (row : Fin 32) (col : Fin 64) : Prop :=
  ∃ r c : Nat, r < n ∧ c < 8 ∧ (s.readMem (dataAddr s.i r)).getLsbD (7 - c) = true
    ∧ row.val = (y0.toNat + r) % 32 ∧ col.val = (x0.toNat + c) % 64

/-! ### States that differ where nothing reads -/

/-- Equal but for the stack entries at or above SP, which no rule reads (10_state.md R28). -/
structure SameButDeadStack (s t : State) : Prop where
  sp     : t.sp = s.sp
  live   : ∀ j : Fin 16, j.val < s.sp.val → t.stackAt j = s.stackAt j
  others : t = { s with stack := t.stack }

end Sys2Proof.Machine
end

