-- ==== Sys2Proof/WellFormed.lean ====
section
/-! DEFINITION. Which terms of `Instr` stand for a word. Operand fields are in range by construction
(30_encoding.md R68), so the one check is on `unknown w`: `w` must lie in the unknown space of R65. -/

namespace Sys2Proof

/-- The unknown space, class by class, as the table of R65 gives it (written from R65, not from the
decoder's table). -/
def isUnknownWord (w : Word) : Bool :=
  match fieldClass w with
  | 0x0 => !([0x0000, 0x00E0, 0x00EE].contains w)
  | 0x5 => fieldN w != 0
  | 0x8 => [0x8, 0x9, 0xA, 0xB, 0xC, 0xD, 0xF].contains (fieldN w)
  | 0x9 => fieldN w != 0
  | 0xE => !([0x9E, 0xA1].contains (fieldKK w))
  | 0xF => !([0x07, 0x0A, 0x15, 0x18, 0x1E, 0x29, 0x33, 0x55, 0x65].contains (fieldKK w))
  | _ => false

/-- An instruction that some word stands for. -/
def Instr.wellFormed : Instr → Bool
  | .halt => true
  | .cls => true
  | .ret => true
  | .jp _ => true
  | .call _ => true
  | .seImm _ _ => true
  | .sneImm _ _ => true
  | .seReg _ _ => true
  | .ldImm _ _ => true
  | .addImm _ _ => true
  | .ldReg _ _ => true
  | .orReg _ _ => true
  | .andReg _ _ => true
  | .xorReg _ _ => true
  | .addReg _ _ => true
  | .subReg _ _ => true
  | .shr _ _ => true
  | .subn _ _ => true
  | .shl _ _ => true
  | .sneReg _ _ => true
  | .ldI _ => true
  | .jpV0 _ => true
  | .rnd _ _ => true
  | .drw _ _ _ => true
  | .skp _ => true
  | .sknp _ => true
  | .ldVxDt _ => true
  | .ldVxK _ => true
  | .ldDtVx _ => true
  | .ldStVx _ => true
  | .addIVx _ => true
  | .ldFVx _ => true
  | .ldBVx _ => true
  | .ldMemVx _ => true
  | .ldVxMem _ => true
  | .unknown w => isUnknownWord w

end Sys2Proof
end

