-- ==== Sys2Proof/Certificates/Slice0/Obligations.lean ====
section
/-! DEFINITION. The statements for the provers: what the spec's rules say of the model. What an
instruction leaves unchanged is said after its result; that is the frame rule, 00_scope.md R11, which is
the spec's own decision D1 (log entry 14). Where a flag meets x = F, the flag is last: the spec's
decision D2 (log entry 13). -/

section
open Sys2Proof Sys2Proof.Machine

/-! ### Encoding (30_encoding.md) -/

/-- Words written out from R63's patterns decode to the instructions they stand for (Table W1 of
95_test_vectors.md). -/
def Obligations.DecodeOfWrittenWords : Prop :=
  decode 0x0000 = .halt ∧ decode 0x00E0 = .cls ∧ decode 0x00EE = .ret
  ∧ decode 0x2ABC = .call 0xABC ∧ decode 0x3A12 = .seImm 0xA 0x12
  ∧ decode 0x8AB4 = .addReg 0xA 0xB ∧ decode 0x8ABE = .shl 0xA 0xB
  ∧ decode 0xD125 = .drw 1 2 5 ∧ decode 0xE1A1 = .sknp 1 ∧ decode 0xF165 = .ldVxMem 1
  ∧ decode 0x8AB8 = .unknown 0x8AB8 ∧ decode 0x00FF = .unknown 0x00FF

/-- Decoding an encoded well-formed instruction gives it back, every operand at every value (R63, R67,
R69). -/
def Obligations.DecodeEncodeRoundTrip : Prop :=
  ∀ i : Instr, i.wellFormed = true → decode (encode i) = i

/-- Encoding a decoded word gives the word back: no bit of any word is dropped, the ignored y of 8xy6
and 8xyE included (R67, R69). -/
def Obligations.EncodeDecodeRoundTrip : Prop :=
  ∀ w : Word, encode (decode w) = w

/-- Every word decodes to a well-formed instruction, and the words that decode to UNKNOWN are exactly
those of R65's class table, each carrying its own word. -/
def Obligations.UnknownSpaceIsExact : Prop :=
  (∀ w, (decode w).wellFormed = true)
  ∧ (∀ w, isUnknownWord w = true ↔ decode w = .unknown w)
  ∧ (∀ w w', decode w = .unknown w' → w' = w)

/-- R66, order-free: the zero word is no instruction; a nonzero word that a row covers decodes to that
row's descriptor, whichever row it is; a nonzero word that no row covers is unknown. -/
def Obligations.DecodeFollowsEveryRow : Prop :=
  decode 0x0000 = .halt
  ∧ (∀ w : Word, ∀ r ∈ opcodeRows, w &&& r.mask = r.bits → w ≠ 0x0000 ∧ decode w = r.descriptor w)
  ∧ (∀ w : Word, w ≠ 0x0000 → (∀ r ∈ opcodeRows, w &&& r.mask ≠ r.bits) → decode w = .unknown w)

/-- R71: a decoder consumes exactly two bytes. The two bytes the encoder spells a well-formed instruction
in decode to it, whatever follows. -/
def Obligations.DecoderConsumesTwoBytes : Prop :=
  (∀ (hi lo : Byte) (rest : List Byte), ∃ i, decodeBytes (hi :: lo :: rest) = .ok (i, rest))
  ∧ (∀ bs : List Byte, bs.length < 2 → decodeBytes bs = .error .truncated)
  ∧ (∀ i : Instr, ∀ rest : List Byte, i.wellFormed = true →
      decodeBytes (encodeBytes i ++ rest) = .ok (i, rest))

/-! ### The cycle (40_cycle.md) -/

/-- A step runs the decoded instruction: at a legal fetch of a nonzero word, the step is `exec` of the
decoded instruction at the state with pc advanced by 2 (R79, R80; the word is big-endian, the spec's
decision D4, log entry 9). -/
def Obligations.StepRunsDecodedInstruction : Prop :=
  ∀ (s : State) (w : Word), Fetches s w → w ≠ 0x0000 →
    step s = exec (decode w) { s with pc := s.pc + 2 }

/-- What `withFetchWord` is for: the next step fetches exactly the given word, from every state; with a
legal pc in a Running core only the two bytes at pc change. -/
def Obligations.WithFetchWordIsFetched : Prop :=
  (∀ (s : State) (w : Word), Fetches (s.withFetchWord 16 w.toNat) w)
  ∧ (∀ (s : State) (n w : Nat), s.status = .running → s.pc.toNat % 2 = 0 → 0x200 ≤ s.pc.toNat →
      s.pc.toNat ≤ 0xFFE → ∃ t, s.withFetchWord n w = t ∧ t = { s with mem := t.mem }
        ∧ SameMem [mask12 s.pc, mask12 (s.pc + 1)] s t)

/-- R81 (the spec's decision D5, pc unadvanced): the step that fetches 0x0000 returns Halted and
changes nothing, and so does every further one. -/
def Obligations.HaltIsAFixedPoint : Prop :=
  (∀ s, exec .halt s = .next s)
  ∧ (∀ s : State, Fetches s 0x0000 →
      s.report = some .halted ∧ step s = .next s ∧ ∀ k, Sys2Proof.core.run k s = .next s)

/-- R78 (the spec's decision D3): a Running core whose pc is odd, below 0x200 or above 0xFFE becomes
Faulted(FetchOutOfRange), with nothing else changed. -/
def Obligations.BadFetchIsFatal : Prop :=
  ∀ s : State, s.status = .running →
    (s.pc.toNat % 2 = 1 ∨ s.pc.toNat < 0x200 ∨ 0xFFE < s.pc.toNat) →
    s.report = some (.fatal .fetchOutOfRange)
    ∧ step s = .next { s with status := .faulted .fetchOutOfRange }

/-- R75, R136 (the spec's decision D6): a step of a Faulted core changes nothing and returns the error
again, and no sequence of steps and host operations leaves the status. The model's choice (log entry 4):
exactly such a step answers Outcome.fault, and no step is refused. -/
def Obligations.FaultedIsPermanent : Prop :=
  (∀ (s : State) (e : Fault), s.status = .faulted e →
    s.act .step = s ∧ s.report = some (.fatal e)
    ∧ ∀ as : List Action, (s.run as).status = .faulted e ∧ (s.run as).report = some (.fatal e))
  ∧ (∀ s e, step s = .fault e ↔ s.status = .faulted e) ∧ (∀ s r, step s ≠ .refused r)

/-- R76 (the spec's decision D7): while waiting with no key latched, a step changes nothing and
returns Waiting. -/
def Obligations.WaitingWithoutKeyChangesNothing : Prop :=
  ∀ (s : State) (x : RegIdx), s.status = .waiting x → s.latchedKey = none →
    step s = .next s ∧ s.report = some (.waiting x)

/-- R77 (the spec's decision D7): while waiting with key k latched, a step writes k to V[x], makes the
core Running, clears the latch, and does nothing else. -/
def Obligations.WaitingWithKeyCompletes : Prop :=
  ∀ (s : State) (x : RegIdx) (k : KeyIdx), s.status = .waiting x → s.latchedKey = some k →
    s.report = some (.executed (.ldVxK x))
    ∧ ∃ t, step s = .next t ∧ (t.readV x).toNat = k.val ∧ t.status = .running ∧ t.latchedKey = none
      ∧ SameV [x] s t ∧ SameMem [] s t
      ∧ t = { s with v := t.v, status := .running, latchedKey := none }

/-- R83: an unknown word is a no-op that advances pc by 2, and the step reports it. -/
def Obligations.UnknownWordIsANoOp : Prop :=
  (∀ w s, exec (.unknown w) s = .next s)
  ∧ (∀ (s : State) (w : Word), Fetches s w → isUnknownWord w = true →
      step s = .next { s with pc := s.pc + 2 } ∧ s.report = some (.unknown w))

/-- R84, R134 (the spec's decision D6): fatal errors are precise. When a step of a Running core enters
a fatal error, whichever it is, the state differs from the one before the step in Status alone, and the
step returns that error. -/
def Obligations.FatalErrorsArePrecise : Prop :=
  ∀ (s t : State) (e : Fault), s.status = .running → step s = .next t → t.status = .faulted e →
    t = { s with status := .faulted e } ∧ s.report = some (.fatal e)

/-- R127, R135: which fetched instruction enters which fatal error, exactly (E6 is the spec's decision
D8). -/
def Obligations.FatalErrorConditions : Prop :=
  ∀ (s : State) (w : Word) (e : Fault), Fetches s w →
    ((∃ t, step s = .next t ∧ t.status = .faulted e) ↔
      (e = .stackOverflow ∧ s.sp.val = 16 ∧ ∃ nnn, decode w = .call nnn)
      ∨ (e = .stackUnderflow ∧ s.sp.val = 0 ∧ decode w = .ret)
      ∨ (e = .keyIndexOutOfRange ∧ ∃ x, 15 < (s.readV x).toNat ∧
          (decode w = .skp x ∨ decode w = .sknp x)))

/-- R87, R153 (Halted is the spec's decision D5): the run has ended exactly when a Running core stands
at a legal address that holds the zero word; after initialization it has ended at once, for every value
of the parameters. -/
def Obligations.HaltedExactlyAtZeroWord : Prop :=
  (∀ s : State, s.halted ↔ Fetches s 0x0000) ∧ (∀ cfg : Config, cfg.wf → (State.init cfg).halted)

/-- R74: a step that does not raise a fatal error and did not fetch an unknown or the zero word
returns the descriptor it executed. -/
def Obligations.StepReportsTheDescriptor : Prop :=
  ∀ (s t : State) (w : Word), Fetches s w → w ≠ 0x0000 → isUnknownWord w = false →
    step s = .next t → (∀ e, t.status ≠ .faulted e) → s.report = some (.executed (decode w))

/-! ### Control flow (41_flow.md) -/

/-- R27, R28: the stack primitives. -/
def Obligations.StackPrimitives : Prop :=
  (∀ (s : State) (a : Word), s.sp.val = 16 → s.push a = none)
  ∧ (∀ (s : State) (a : Word) (j : Fin 16), s.sp.val = j.val → ∃ t, s.push a = some t
      ∧ t.stackAt j = a ∧ (∀ k, k ≠ j → t.stackAt k = s.stackAt k) ∧ t.sp.val = s.sp.val + 1
      ∧ t = { s with stack := t.stack, sp := t.sp })
  ∧ (∀ s : State, s.sp.val = 0 → s.pop = none)
  ∧ (∀ (s : State) (j : Fin 16), s.sp.val = j.val + 1 → ∃ t, s.pop = some (s.stackAt j, t)
      ∧ t.sp.val = j.val ∧ t = { s with sp := t.sp })

/-- R89: RET pops pc, and with an empty stack enters StackUnderflow, the step undone. -/
def Obligations.RetPopsPc : Prop :=
  decode 0x00EE = .ret
  ∧ (∀ (s : State) (j : Fin 16), s.sp.val = j.val + 1 → ∃ t, exec .ret s = .next t
      ∧ t.pc = s.stackAt j ∧ t.sp.val = j.val ∧ (∀ k, t.stackAt k = s.stackAt k)
      ∧ SameV [] s t ∧ t.i = s.i ∧ SameMem [] s t ∧ SameFb s t ∧ SameRest s t)
  ∧ (∀ s : State, Fetches s 0x00EE → s.sp.val = 0 →
      step s = .next { s with status := .faulted .stackUnderflow })

/-- R90, R96 (no 12-bit wrap in Bnnn is the spec's decision D11): jumps. -/
def Obligations.JumpsSetPc : Prop :=
  (∀ nnn, decode (0x1000 ||| placeNNN nnn) = .jp nnn ∧ decode (0xB000 ||| placeNNN nnn) = .jpV0 nnn)
  ∧ (∀ (nnn : Addr) (s : State), ∃ t, exec (.jp nnn) s = .next t ∧ t.pc.toNat = nnn.toNat
      ∧ SameV [] s t ∧ t.i = s.i ∧ SameMem [] s t ∧ SameStack s t ∧ SameFb s t ∧ SameRest s t)
  ∧ (∀ (nnn : Addr) (s : State), ∃ t, exec (.jpV0 nnn) s = .next t
      ∧ t.pc.toNat = nnn.toNat + (s.readV 0).toNat
      ∧ SameV [] s t ∧ t.i = s.i ∧ SameMem [] s t ∧ SameStack s t ∧ SameFb s t ∧ SameRest s t)

/-- R91: CALL saves pc (the CALL's address + 2) and jumps; at SP = 16 it enters StackOverflow, the
step undone. -/
def Obligations.CallPushesPc : Prop :=
  (∀ nnn, decode (0x2000 ||| placeNNN nnn) = .call nnn)
  ∧ (∀ (nnn : Addr) (s : State) (j : Fin 16), s.sp.val = j.val → ∃ t, exec (.call nnn) s = .next t
      ∧ t.pc.toNat = nnn.toNat ∧ t.sp.val = j.val + 1 ∧ t.stackAt j = s.pc
      ∧ (∀ k, k ≠ j → t.stackAt k = s.stackAt k)
      ∧ SameV [] s t ∧ t.i = s.i ∧ SameMem [] s t ∧ SameFb s t ∧ SameRest s t)
  ∧ (∀ (nnn : Addr) (s : State), Fetches s (0x2000 ||| placeNNN nnn) → s.sp.val = 16 →
      step s = .next { s with status := .faulted .stackOverflow })

/-- The source's round trip (W7 of 95_test_vectors.md), from every state: a CALL to a RET comes back
to the address after the CALL in two steps, with only the stack entry it used changed. -/
def Obligations.CallThenRetReturns : Prop :=
  ∀ (s : State) (nnn : Addr) (j : Fin 16), Fetches s (0x2000 ||| placeNNN nnn) → s.sp.val = j.val →
    Fetches { s with pc := zextAddr nnn } 0x00EE →
    ∃ t u, step s = .next t ∧ step t = .next u ∧ u.pc = s.pc + 2
      ∧ (∀ k, k ≠ j → u.stackAt k = s.stackAt k) ∧ u = { s with pc := s.pc + 2, stack := u.stack }

/-- R92–R95: the skips add 2 to pc exactly when their condition holds, and change nothing else. -/
def Obligations.SkipsAddTwoToPc : Prop :=
  (∀ x kk, decode (0x3000 ||| placeX x ||| placeKK kk) = .seImm x kk
    ∧ decode (0x4000 ||| placeX x ||| placeKK kk) = .sneImm x kk)
  ∧ (∀ x y, decode (0x5000 ||| placeX x ||| placeY y) = .seReg x y
    ∧ decode (0x9000 ||| placeX x ||| placeY y) = .sneReg x y)
  ∧ (∀ x kk s, exec (.seImm x kk) s
      = .next { s with pc := if s.readV x = kk then s.pc + 2 else s.pc })
  ∧ (∀ x kk s, exec (.sneImm x kk) s
      = .next { s with pc := if s.readV x = kk then s.pc else s.pc + 2 })
  ∧ (∀ x y s, exec (.seReg x y) s
      = .next { s with pc := if s.readV x = s.readV y then s.pc + 2 else s.pc })
  ∧ (∀ x y s, exec (.sneReg x y) s
      = .next { s with pc := if s.readV x = s.readV y then s.pc else s.pc + 2 })

/-! ### Registers and arithmetic (42_alu.md) -/

/-- R99–R101: the loads, and ADD Vx, kk, which wraps modulo 256 and writes no carry. -/
def Obligations.LoadsAndAddImmediate : Prop :=
  (∀ x kk, decode (0x6000 ||| placeX x ||| placeKK kk) = .ldImm x kk
    ∧ decode (0x7000 ||| placeX x ||| placeKK kk) = .addImm x kk)
  ∧ (∀ x y, decode (0x8000 ||| placeX x ||| placeY y) = .ldReg x y)
  ∧ (∀ (x : RegIdx) (kk : Byte) (s : State), ∃ t, exec (.ldImm x kk) s = .next t ∧ t.readV x = kk
      ∧ SameV [x] s t ∧ t.i = s.i ∧ t.pc = s.pc ∧ SameMem [] s t ∧ SameStack s t ∧ SameFb s t
      ∧ SameRest s t)
  ∧ (∀ (x : RegIdx) (kk : Byte) (s : State), ∃ t, exec (.addImm x kk) s = .next t
      ∧ (t.readV x).toNat = ((s.readV x).toNat + kk.toNat) % 256
      ∧ SameV [x] s t ∧ t.i = s.i ∧ t.pc = s.pc ∧ SameMem [] s t ∧ SameStack s t ∧ SameFb s t
      ∧ SameRest s t)
  ∧ (∀ (x y : RegIdx) (s : State), ∃ t, exec (.ldReg x y) s = .next t ∧ t.readV x = s.readV y
      ∧ SameV [x] s t ∧ t.i = s.i ∧ t.pc = s.pc ∧ SameMem [] s t ∧ SameStack s t ∧ SameFb s t
      ∧ SameRest s t)

/-- OR, AND, XOR, bit by bit; VF is not reset (the spec's decision D1, 42_alu.md). -/
def Obligations.LogicIsBitwise : Prop :=
  (∀ x y, decode (0x8001 ||| placeX x ||| placeY y) = .orReg x y
    ∧ decode (0x8002 ||| placeX x ||| placeY y) = .andReg x y
    ∧ decode (0x8003 ||| placeX x ||| placeY y) = .xorReg x y)
  ∧ (∀ (x y : RegIdx) (s : State), ∃ t, exec (.orReg x y) s = .next t
      ∧ (∀ j, (t.readV x).getLsbD j = ((s.readV x).getLsbD j || (s.readV y).getLsbD j))
      ∧ SameV [x] s t ∧ t.i = s.i ∧ t.pc = s.pc ∧ SameMem [] s t ∧ SameStack s t ∧ SameFb s t
      ∧ SameRest s t)
  ∧ (∀ (x y : RegIdx) (s : State), ∃ t, exec (.andReg x y) s = .next t
      ∧ (∀ j, (t.readV x).getLsbD j = ((s.readV x).getLsbD j && (s.readV y).getLsbD j))
      ∧ SameV [x] s t ∧ t.i = s.i ∧ t.pc = s.pc ∧ SameMem [] s t ∧ SameStack s t ∧ SameFb s t
      ∧ SameRest s t)
  ∧ (∀ (x y : RegIdx) (s : State), ∃ t, exec (.xorReg x y) s = .next t
      ∧ (∀ j, (t.readV x).getLsbD j = ((s.readV x).getLsbD j ^^ (s.readV y).getLsbD j))
      ∧ SameV [x] s t ∧ t.i = s.i ∧ t.pc = s.pc ∧ SameMem [] s t ∧ SameStack s t ∧ SameFb s t
      ∧ SameRest s t)

/-- R105: ADD Vx, Vy is the sum modulo 256, VF the carry, the flag last (with x = F the register ends
holding the flag). -/
def Obligations.AddRegisterSetsCarry : Prop :=
  (∀ x y, decode (0x8004 ||| placeX x ||| placeY y) = .addReg x y)
  ∧ (∀ (x y : RegIdx) (s : State), ∃ t, exec (.addReg x y) s = .next t
      ∧ (x ≠ 15 → (t.readV x).toNat = ((s.readV x).toNat + (s.readV y).toNat) % 256)
      ∧ (t.readV 15).toNat = (if (s.readV x).toNat + (s.readV y).toNat > 255 then 1 else 0)
      ∧ SameV [x, 15] s t ∧ t.i = s.i ∧ t.pc = s.pc ∧ SameMem [] s t ∧ SameStack s t ∧ SameFb s t
      ∧ SameRest s t)

/-- R106, R108: SUB and SUBN, VF the non-strict no-borrow, the flag last. -/
def Obligations.SubtractSetsNoBorrow : Prop :=
  (∀ x y, decode (0x8005 ||| placeX x ||| placeY y) = .subReg x y
    ∧ decode (0x8007 ||| placeX x ||| placeY y) = .subn x y)
  ∧ (∀ (x y : RegIdx) (s : State), ∃ t, exec (.subReg x y) s = .next t
      ∧ (x ≠ 15 → ((t.readV x).toNat : Int) = ((s.readV x).toNat - (s.readV y).toNat : Int) % 256)
      ∧ (t.readV 15).toNat = (if (s.readV x).toNat ≥ (s.readV y).toNat then 1 else 0)
      ∧ SameV [x, 15] s t ∧ t.i = s.i ∧ t.pc = s.pc ∧ SameMem [] s t ∧ SameStack s t ∧ SameFb s t
      ∧ SameRest s t)
  ∧ (∀ (x y : RegIdx) (s : State), ∃ t, exec (.subn x y) s = .next t
      ∧ (x ≠ 15 → ((t.readV x).toNat : Int) = ((s.readV y).toNat - (s.readV x).toNat : Int) % 256)
      ∧ (t.readV 15).toNat = (if (s.readV y).toNat ≥ (s.readV x).toNat then 1 else 0)
      ∧ SameV [x, 15] s t ∧ t.i = s.i ∧ t.pc = s.pc ∧ SameMem [] s t ∧ SameStack s t ∧ SameFb s t
      ∧ SameRest s t)

/-- R107, R109: SHR and SHL move Vx by one bit, whatever y is, and put the bit shifted out into VF,
the flag last. -/
def Obligations.ShiftsMoveOneBit : Prop :=
  (∀ x y, decode (0x8006 ||| placeX x ||| placeY y) = .shr x y
    ∧ decode (0x800E ||| placeX x ||| placeY y) = .shl x y)
  ∧ (∀ (x y : RegIdx) (s : State), ∃ t, exec (.shr x y) s = .next t
      ∧ (x ≠ 15 → (t.readV x).toNat = (s.readV x).toNat / 2)
      ∧ (t.readV 15).toNat = (s.readV x).toNat % 2
      ∧ SameV [x, 15] s t ∧ t.i = s.i ∧ t.pc = s.pc ∧ SameMem [] s t ∧ SameStack s t ∧ SameFb s t
      ∧ SameRest s t)
  ∧ (∀ (x y : RegIdx) (s : State), ∃ t, exec (.shl x y) s = .next t
      ∧ (x ≠ 15 → (t.readV x).toNat = (s.readV x).toNat * 2 % 256)
      ∧ (t.readV 15).toNat = (s.readV x).toNat / 128
      ∧ SameV [x, 15] s t ∧ t.i = s.i ∧ t.pc = s.pc ∧ SameMem [] s t ∧ SameStack s t ∧ SameFb s t
      ∧ SameRest s t)

/-- RND (42_alu.md; the draw is the spec's decision D18): exec is the effect of one draw from the random
source, the free value at the draw count; for EVERY draw r that effect writes r AND kk to V[x] and nothing else but the model's own draw count (log entry
3); and every byte within kk is the result of some draw. -/
def Obligations.RandomIsAnyByteWithinMask : Prop :=
  (∀ x kk, decode (0xC000 ||| placeX x ||| placeKK kk) = .rnd x kk)
  ∧ (∀ (x : RegIdx) (kk : Byte) (s : State),
      exec (.rnd x kk) s = .next (s.takeRandom (Config.randomByte s.rngDraws) x kk))
  ∧ (∀ (r : Byte) (x : RegIdx) (kk : Byte) (s : State), ∃ t, s.takeRandom r x kk = t
      ∧ t.readV x = r &&& kk ∧ t.readV x &&& ~~~kk = 0
      ∧ SameV [x] s t ∧ SameMem [] s t ∧ t = { s with v := t.v, rngDraws := s.rngDraws + 1 })
  ∧ (∀ (x : RegIdx) (kk b : Byte) (s : State), b &&& ~~~kk = 0 →
      ∃ r, (s.takeRandom r x kk).readV x = b)

/-! ### Index register and memory (43_index_memory.md) -/

/-- R111: LD I, nnn. -/
def Obligations.LoadIndex : Prop :=
  (∀ nnn, decode (0xA000 ||| placeNNN nnn) = .ldI nnn)
  ∧ (∀ (nnn : Addr) (s : State), ∃ t, exec (.ldI nnn) s = .next t ∧ t.i.toNat = nnn.toNat
      ∧ SameV [] s t ∧ t.pc = s.pc ∧ SameMem [] s t ∧ SameStack s t ∧ SameFb s t ∧ SameRest s t)

/-- ADD I, Vx (12-bit wrap, VF unchanged: the spec's decision D1) and LD F, Vx (the glyph of the low
nibble, for every FONT_BASE: the spec's decision D9). -/
def Obligations.IndexArithmetic : Prop :=
  (∀ x, decode (0xF01E ||| placeX x) = .addIVx x ∧ decode (0xF029 ||| placeX x) = .ldFVx x)
  ∧ (∀ (x : RegIdx) (s : State), ∃ t, exec (.addIVx x) s = .next t
      ∧ t.i.toNat = (s.i.toNat + (s.readV x).toNat) % 4096
      ∧ SameV [] s t ∧ t.pc = s.pc ∧ SameMem [] s t ∧ SameStack s t ∧ SameFb s t ∧ SameRest s t)
  ∧ (∀ (x : RegIdx) (s : State), ∃ t, exec (.ldFVx x) s = .next t
      ∧ t.i.toNat = (s.cfg.fontBase.toNat + 5 * ((s.readV x).toNat % 16)) % 65536
      ∧ SameV [] s t ∧ t.pc = s.pc ∧ SameMem [] s t ∧ SameStack s t ∧ SameFb s t ∧ SameRest s t)

/-- R114: LD B, Vx stores the three decimal digits at mask12(I), mask12(I+1), mask12(I+2), and nothing
else. -/
def Obligations.BcdStoresThreeDigits : Prop :=
  (∀ x, decode (0xF033 ||| placeX x) = .ldBVx x)
  ∧ (∀ (x : RegIdx) (s : State), ∃ t, exec (.ldBVx x) s = .next t
      ∧ (t.readMem (dataAddr s.i 0)).toNat = (s.readV x).toNat / 100
      ∧ (t.readMem (dataAddr s.i 1)).toNat = (s.readV x).toNat / 10 % 10
      ∧ (t.readMem (dataAddr s.i 2)).toNat = (s.readV x).toNat % 10
      ∧ SameMem [dataAddr s.i 0, dataAddr s.i 1, dataAddr s.i 2] s t
      ∧ SameV [] s t ∧ t.i = s.i ∧ t.pc = s.pc ∧ SameStack s t ∧ SameFb s t ∧ SameRest s t)

/-- LD [I], Vx stores V0 to Vx at mask12(I + k), wrapping past 0xFFF, and nothing else; I is unchanged
(the spec's decision D12). -/
def Obligations.StoreRegistersAtIndex : Prop :=
  (∀ x, decode (0xF055 ||| placeX x) = .ldMemVx x)
  ∧ (∀ (x : RegIdx) (s : State), ∃ t, exec (.ldMemVx x) s = .next t
      ∧ (∀ k : RegIdx, k ≤ x → t.readMem (dataAddr s.i k.val) = s.readV k)
      ∧ SameMem ((List.range (x.val + 1)).map (dataAddr s.i)) s t
      ∧ SameV [] s t ∧ t.i = s.i ∧ t.pc = s.pc ∧ SameStack s t ∧ SameFb s t ∧ SameRest s t)

/-- LD Vx, [I] loads V0 to Vx from mask12(I + k), and nothing else; I is unchanged (the spec's
decision D12). -/
def Obligations.LoadRegistersFromIndex : Prop :=
  (∀ x, decode (0xF065 ||| placeX x) = .ldVxMem x)
  ∧ (∀ (x : RegIdx) (s : State), ∃ t, exec (.ldVxMem x) s = .next t
      ∧ (∀ k : RegIdx, k ≤ x → t.readV k = s.readMem (dataAddr s.i k.val))
      ∧ (∀ k : RegIdx, x < k → t.readV k = s.readV k)
      ∧ SameMem [] s t ∧ t.i = s.i ∧ t.pc = s.pc ∧ SameStack s t ∧ SameFb s t ∧ SameRest s t)

/-! ### Display (44_display.md) -/

/-- R117: CLS clears all 2048 cells and writes no flag. -/
def Obligations.ClsClearsFramebuffer : Prop :=
  decode 0x00E0 = .cls
  ∧ (∀ s : State, ∃ t, exec .cls s = .next t ∧ (∀ row col, t.fb.pixel row col = false)
      ∧ SameV [] s t ∧ t.i = s.i ∧ t.pc = s.pc ∧ SameMem [] s t ∧ SameStack s t ∧ SameRest s t)

/-- R118 with R119's closed form: the loop of DRW flips exactly the cells the sprite lights, VF is 1
exactly when one of those was set, and nothing else changes. With n = 0 no cell is lit, so none changes
and VF is 0 (R120, the spec's decision D21). -/
def Obligations.DrawFlipsExactlyTheLitCells : Prop :=
  (∀ x y n, decode (0xD000 ||| placeX x ||| placeY y ||| placeN n) = .drw x y n)
  ∧ (∀ (x y : RegIdx) (n : Fin 16) (s : State), ∃ t, exec (.drw x y n) s = .next t
      ∧ (∀ row col, Lights s (s.readV x) (s.readV y) n.val row col →
          t.fb.pixel row col = !s.fb.pixel row col)
      ∧ (∀ row col, ¬ Lights s (s.readV x) (s.readV y) n.val row col →
          t.fb.pixel row col = s.fb.pixel row col)
      ∧ ((∃ row col, Lights s (s.readV x) (s.readV y) n.val row col ∧ s.fb.pixel row col = true) →
          t.readV 15 = 1)
      ∧ ((¬ ∃ row col, Lights s (s.readV x) (s.readV y) n.val row col ∧ s.fb.pixel row col = true) →
          t.readV 15 = 0)
      ∧ SameV [15] s t ∧ t.i = s.i ∧ t.pc = s.pc ∧ SameMem [] s t ∧ SameStack s t ∧ SameRest s t)

/-- The source's collision example (W5 of 95_test_vectors.md) for every sprite and every framebuffer:
the same DRW twice gives the framebuffer back, and on a clear framebuffer the first sets VF = 0 and the
second sets VF = 1 if the sprite has a set bit, else 0. -/
def Obligations.DrawTwiceRestoresFramebuffer : Prop :=
  ∀ (x y : RegIdx) (n : Fin 16) (s : State), x ≠ 15 → y ≠ 15 →
    ∃ t u, exec (.drw x y n) s = .next t ∧ exec (.drw x y n) t = .next u ∧ SameFb s u
      ∧ ((∀ row col, s.fb.pixel row col = false) → t.readV 15 = 0
          ∧ (u.readV 15 = 1 ↔ ∃ row col, Lights s (s.readV x) (s.readV y) n.val row col)
          ∧ (u.readV 15 = 0 ↔ ¬ ∃ row col, Lights s (s.readV x) (s.readV y) n.val row col))

/-! ### Keypad and timers (45_timers_keys.md) -/

/-- SKP and SKNP skip on the key V[x] names; a value that names no key is the fatal error
KeyIndexOutOfRange, the step undone (the spec's decision D8). -/
def Obligations.KeySkips : Prop :=
  (∀ x, decode (0xE09E ||| placeX x) = .skp x ∧ decode (0xE0A1 ||| placeX x) = .sknp x)
  ∧ (∀ (x : RegIdx) (k : KeyIdx) (s : State), (s.readV x).toNat = k.val →
      exec (.skp x) s = .next { s with pc := if s.keyAt k = true then s.pc + 2 else s.pc }
      ∧ exec (.sknp x) s = .next { s with pc := if s.keyAt k = true then s.pc else s.pc + 2 })
  ∧ (∀ (x : RegIdx) (s : State), 15 < (s.readV x).toNat →
      Fetches s (0xE09E ||| placeX x) ∨ Fetches s (0xE0A1 ||| placeX x) →
      step s = .next { s with status := .faulted .keyIndexOutOfRange })

/-- R123, R125, R126: reading DT, writing DT and ST. -/
def Obligations.TimerMoves : Prop :=
  (∀ x, decode (0xF007 ||| placeX x) = .ldVxDt x ∧ decode (0xF015 ||| placeX x) = .ldDtVx x
    ∧ decode (0xF018 ||| placeX x) = .ldStVx x)
  ∧ (∀ (x : RegIdx) (s : State), ∃ t, exec (.ldVxDt x) s = .next t ∧ t.readV x = s.dt
      ∧ SameV [x] s t ∧ SameMem [] s t ∧ t = { s with v := t.v })
  ∧ (∀ (x : RegIdx) (s : State), ∃ t, exec (.ldDtVx x) s = .next t
      ∧ t = { s with dt := s.readV x } ∧ SameMem [] s t)
  ∧ (∀ (x : RegIdx) (s : State), ∃ t, exec (.ldStVx x) s = .next t
      ∧ t = { s with st := s.readV x } ∧ SameMem [] s t)

/-- LD Vx, K always suspends the core, with nothing latched and V[x] not yet written (the spec's
decision D7). -/
def Obligations.WaitForKeySuspends : Prop :=
  (∀ x, decode (0xF00A ||| placeX x) = .ldVxK x)
  ∧ (∀ (x : RegIdx) (s : State), ∃ t, exec (.ldVxK x) s = .next t
      ∧ t = { s with status := .waiting x, latchedKey := none } ∧ SameV [] s t ∧ SameMem [] s t)

/-- The whole wait (45_timers_keys.md, 60_exceptions.md; the spec's decision D7): an Fx0A, then a press
of a released key, then a step: V[x] is that key, whatever the host does between the press and the step;
and unless it loads a program there, memory is unchanged too. -/
def Obligations.WaitEndsWithFirstPress : Prop :=
  ∀ (s : State) (x : RegIdx) (k : KeyIdx) (others : List Action), Fetches s (0xF00A ||| placeX x) →
    s.keyAt k = false → .step ∉ others →
    ∃ t, s.run ([.step, .setKey k true] ++ others ++ [.step]) = t
      ∧ (t.readV x).toNat = k.val ∧ t.status = .running ∧ t.latchedKey = none ∧ t.pc = s.pc + 2
      ∧ SameV [x] s t ∧ t.i = s.i ∧ SameStack s t ∧ SameFb s t
      ∧ ((∀ bytes, .loadProgram bytes ∉ others) → SameMem [] s t)

/-! ### Host ports and reset (60_exceptions.md, 70_reset_and_hazards.md) -/

/-- R140: `tick_timers`. -/
def Obligations.TickTimersFloorsAtZero : Prop :=
  ∀ s : State, s.tickTimers = { s with dt := s.tickTimers.dt, st := s.tickTimers.st }
    ∧ s.tickTimers.dt.toNat = s.dt.toNat - 1 ∧ s.tickTimers.st.toNat = s.st.toNat - 1

/-- `set_key` (60_exceptions.md; the latch is the spec's decision D7): it writes Key[k]; it latches k
exactly on a press of a released key in a suspended core with nothing latched; nothing else changes. -/
def Obligations.SetKeyLatchesFirstPress : Prop :=
  ∀ (s : State) (k : KeyIdx) (p : Bool), ∃ t, s.setKey k p = t ∧ t.keyAt k = p
    ∧ (∀ j, j ≠ k → t.keyAt j = s.keyAt j)
    ∧ (((∃ x, s.status = .waiting x) ∧ s.latchedKey = none ∧ p = true ∧ s.keyAt k = false) →
        t.latchedKey = some k)
    ∧ (¬ ((∃ x, s.status = .waiting x) ∧ s.latchedKey = none ∧ p = true ∧ s.keyAt k = false) →
        t.latchedKey = s.latchedKey)
    ∧ t = { s with key := t.key, latchedKey := t.latchedKey }

/-- R128: an image of more than 3584 bytes is refused and nothing changes. R152's effect otherwise:
byte j of the image is at 0x200 + j, and nothing else changes (when it may be called is the spec's
decision D22). -/
def Obligations.LoadProgramCopiesImage : Prop :=
  (∀ (s : State) (bytes : List Byte), 4096 - 0x200 < bytes.length →
      s.loadProgram bytes = .error .programTooLarge ∧ s.act (.loadProgram bytes) = s)
  ∧ (∀ (s : State) (bytes : List Byte), bytes.length ≤ 4096 - 0x200 →
      ∃ t, s.loadProgram bytes = .ok t
        ∧ (∀ (j : Nat) (h : j < bytes.length), t.readMem (BitVec.ofNat 12 (0x200 + j)) = bytes[j])
        ∧ (∀ a : Addr, a.toNat < 0x200 ∨ 0x200 + bytes.length ≤ a.toNat →
            t.readMem a = s.readMem a)
        ∧ t = { s with mem := t.mem })

/-- R144, R143: `sound_active` is ST > 0, `framebuffer` is the grid, and neither changes state. -/
def Obligations.ReadPorts : Prop :=
  (∀ s : State, s.soundActive = true ↔ 0 < s.st.toNat)
  ∧ (∀ s : State, s.framebuffer = s.fb)
  ∧ (∀ s : State, s.act .soundActive = s ∧ s.act .framebuffer = s)

/-- R22, R25, R29, R31, R34: what initialization leaves in the registers, for every value of the
parameters. -/
def Obligations.ResetRegisters : Prop :=
  State.reset = State.init defaultConfig
  ∧ ∀ cfg : Config, (∀ r, (State.init cfg).readV r = 0) ∧ (State.init cfg).pc = 0x200
    ∧ (State.init cfg).sp.val = 0 ∧ (∀ j, (State.init cfg).stackAt j = 0) ∧ (State.init cfg).i = 0
    ∧ (State.init cfg).dt = 0 ∧ (State.init cfg).st = 0

/-- The rest of initialization (10_state.md; the spec's decisions D9, D10, D13): the font table at
FONT_BASE and 0x00 elsewhere, keys released, framebuffer clear, Running, nothing latched. -/
def Obligations.ResetMemoryAndStatus : Prop :=
  ∀ cfg : Config, cfg.wf →
    (∀ j : Fin 80, (State.init cfg).readMem (mask12 (cfg.fontBase + BitVec.ofNat 16 j.val))
        = cfg.fontGlyphs[j.val])
    ∧ (∀ a : Addr, a.toNat < cfg.fontBase.toNat ∨ cfg.fontBase.toNat + 80 ≤ a.toNat →
        (State.init cfg).readMem a = 0)
    ∧ (∀ k, (State.init cfg).keyAt k = false)
    ∧ (∀ row col, (State.init cfg).fb.pixel row col = false)
    ∧ (State.init cfg).status = .running ∧ (State.init cfg).latchedKey = none

/-! ### Invariants -/

/-- The initialized machine satisfies the invariant. -/
def Obligations.InitialStateSatisfiesInvariant : Prop :=
  State.reset.Inv ∧ ∀ cfg : Config, cfg.wf → (State.init cfg).Inv

/-- Every step keeps the invariant: memory canonical, I below 0x1000 (10_state.md R30), pc far from
its wrap (R23), live stack entries return addresses, a latch only while waiting. -/
def Obligations.StepKeepsInvariant : Prop :=
  ∀ s t : State, s.Inv → step s = .next t → t.Inv

/-- Every host operation keeps the invariant too, so every sequence of steps and host operations does
(60_exceptions.md R145: the host can do nothing else to the core). -/
def Obligations.EveryRunKeepsInvariant : Prop :=
  ∀ (s : State) (as : List Action), s.Inv → (s.run as).Inv

/-! ### Whole-machine rules -/

/-- Every instruction completes in every state: `exec` never faults and never refuses
(60_exceptions.md R138: every instruction may run in every state). -/
def Obligations.EveryInstructionRunsInEveryState : Prop :=
  ∀ (i : Instr) (s : State), ∃ t, exec i s = .next t

/-- 00_scope.md R11, 10_state.md R21: the execute phase of an instruction changes no V register but
those its rule names; in particular VF only as a flag or as a named register. -/
def Obligations.OnlyNamedRegistersChange : Prop :=
  ∀ (i : Instr) (s t : State) (r : RegIdx), exec i s = .next t → writesReg i r = false →
    t.readV r = s.readV r

/-- 10_state.md R30, R26: I changes only in a step that runs Annn, Fx1E or Fx29; SP and the stack only
in one that runs CALL or RET, and RET changes no entry. -/
def Obligations.WritersOfIndexAndStack : Prop :=
  ∀ s t : State, step s = .next t →
    (t.i ≠ s.i → ∃ w, Fetches s w ∧ ((∃ nnn, decode w = .ldI nnn) ∨ (∃ x, decode w = .addIVx x)
      ∨ (∃ x, decode w = .ldFVx x)))
    ∧ (t.stack ≠ s.stack → ∃ w nnn, Fetches s w ∧ decode w = .call nnn)
    ∧ (t.sp ≠ s.sp → ∃ w, Fetches s w ∧ ((∃ nnn, decode w = .call nnn) ∨ decode w = .ret))

/-- 10_state.md R40, 20_memory.md R44: the framebuffer changes only in a step that runs CLS or DRW,
memory only in one that runs Fx33 or Fx55. -/
def Obligations.WritersOfFramebufferAndMemory : Prop :=
  ∀ s t : State, step s = .next t →
    (t.fb ≠ s.fb → ∃ w, Fetches s w ∧ (decode w = .cls ∨ ∃ x y n, decode w = .drw x y n))
    ∧ (t.mem ≠ s.mem → ∃ w x, Fetches s w ∧ (decode w = .ldBVx x ∨ decode w = .ldMemVx x))

/-- 10_state.md R38, 60_exceptions.md R139: no step changes the keypad or the parameters, and a timer
changes only in a step that runs the instruction that writes it. -/
def Obligations.KeypadAndTimersAreTheHosts : Prop :=
  ∀ s t : State, step s = .next t →
    t.key = s.key ∧ t.cfg = s.cfg
    ∧ (t.dt ≠ s.dt → ∃ w x, Fetches s w ∧ decode w = .ldDtVx x)
    ∧ (t.st ≠ s.st → ∃ w x, Fetches s w ∧ decode w = .ldStVx x)

/-- 40_cycle.md R86: only Fx0A makes a Running core Waiting, for the register it names; and a Waiting
core becomes Running only with a latched key. -/
def Obligations.OnlyFx0ASuspends : Prop :=
  ∀ s t : State, step s = .next t →
    (∀ x, s.status = .running → t.status = .waiting x → ∃ w, Fetches s w ∧ decode w = .ldVxK x)
    ∧ (∀ x, s.status = .waiting x → t.status ≠ s.status → t.status = .running ∧ s.latchedKey ≠ none)

/-- 10_state.md R33 (no instruction reads ST), as noninterference: two states that differ only in ST
take the same step, and end differing at most in ST. -/
def Obligations.SoundTimerIsNeverRead : Prop :=
  ∀ (s t : State) (b : Byte), step s = .next t →
    ∃ u, step { s with st := b } = .next u ∧ u = { t with st := u.st }
      ∧ (u.st = b ∨ u.st = t.st)

/-- 10_state.md R28 (the spec's decision D19: no rule reads an entry above SP), as noninterference: two
states that differ only in the dead part of the stack step to states that differ only there. -/
def Obligations.DeadStackIsNeverRead : Prop :=
  ∀ s s' t : State, SameButDeadStack s s' → step s = .next t →
    ∃ t', step s' = .next t' ∧ SameButDeadStack t t'

end
end

