-- ==== Sys2Proof/Laws/Decode.lean ====
section
/-! SUPPORT. The small lemmas of decoding and encoding: the value of a field, what a mask keeps, what
each placed field contributes to a word, and that the rows of R63 are pairwise distinct. -/

namespace Sys2Proof

/-! ### Fields as numbers (R61) -/

theorem fieldClass_val (w : Word) : (fieldClass w).val = w.toNat / 4096 := by
  have := w.isLt
  show (w.extractLsb' 12 4).toNat = _
  simp only [BitVec.extractLsb'_toNat, Nat.shiftRight_eq_div_pow]
  omega

theorem fieldX_val (w : Word) : (fieldX w).val = w.toNat / 256 % 16 := by
  show (w.extractLsb' 8 4).toNat = _
  simp only [BitVec.extractLsb'_toNat, Nat.shiftRight_eq_div_pow]

theorem fieldY_val (w : Word) : (fieldY w).val = w.toNat / 16 % 16 := by
  show (w.extractLsb' 4 4).toNat = _
  simp only [BitVec.extractLsb'_toNat, Nat.shiftRight_eq_div_pow]

theorem fieldN_val (w : Word) : (fieldN w).val = w.toNat % 16 := by
  show (w.extractLsb' 0 4).toNat = _
  simp [BitVec.extractLsb'_toNat]

theorem fieldKK_toNat (w : Word) : (fieldKK w).toNat = w.toNat % 256 := by
  simp [fieldKK, BitVec.extractLsb'_toNat]

theorem fieldNNN_toNat (w : Word) : (fieldNNN w).toNat = w.toNat % 4096 := by
  simp [fieldNNN, BitVec.extractLsb'_toNat]

/-! ### What the masks of R63 keep -/

theorem high_nibble (b : Byte) : (b &&& 0xF0).toNat = b.toNat / 16 * 16 := by
  revert b; decide

theorem low_nibble (b : Byte) : (b &&& 0x0F).toNat = b.toNat % 16 := by
  revert b; decide

/-- A word is its two bytes. -/
theorem word_eq_bytes (w : Word) :
    w = (w.extractLsb' 8 8 ++ w.extractLsb' 0 8 : BitVec (8 + 8)) := by
  apply BitVec.eq_of_toNat_eq
  rw [BitVec.toNat_append]
  simp only [BitVec.extractLsb'_toNat, Nat.shiftRight_eq_div_pow]
  rw [← Nat.shiftLeft_add_eq_or_of_lt (Nat.mod_lt _ (by decide)), Nat.shiftLeft_eq]
  have := w.isLt
  omega

/-- A mask acts on the two bytes of a word separately. -/
theorem and_toNat (w m : Word) :
    (w &&& m).toNat = (w.extractLsb' 8 8 &&& m.extractLsb' 8 8).toNat * 256
      + (w.extractLsb' 0 8 &&& m.extractLsb' 0 8).toNat := by
  conv_lhs => rw [word_eq_bytes (w &&& m)]
  rw [BitVec.extractLsb'_and, BitVec.extractLsb'_and, BitVec.toNat_append,
    ← Nat.shiftLeft_add_eq_or_of_lt (BitVec.isLt _), Nat.shiftLeft_eq]

theorem high_byte_toNat (w : Word) : (w.extractLsb' 8 8).toNat = w.toNat / 256 := by
  have := w.isLt
  simp only [BitVec.extractLsb'_toNat, Nat.shiftRight_eq_div_pow]
  omega

theorem low_byte_toNat (w : Word) : (w.extractLsb' 0 8).toNat = w.toNat % 256 := by
  simp [BitVec.extractLsb'_toNat]

/-- Mask 0xF000 tests the class. -/
theorem and_F000_toNat (w : Word) : (w &&& 0xF000).toNat = w.toNat / 4096 * 4096 := by
  rw [and_toNat, show (0xF000 : Word).extractLsb' 8 8 = 0xF0 from rfl,
    show (0xF000 : Word).extractLsb' 0 8 = 0#8 from rfl, high_nibble, high_byte_toNat]
  rw [BitVec.and_zero, BitVec.toNat_zero]
  omega

/-- Mask 0xF00F tests the class and n. -/
theorem and_F00F_toNat (w : Word) :
    (w &&& 0xF00F).toNat = w.toNat / 4096 * 4096 + w.toNat % 16 := by
  rw [and_toNat, show (0xF00F : Word).extractLsb' 8 8 = 0xF0 from rfl,
    show (0xF00F : Word).extractLsb' 0 8 = 0x0F from rfl, high_nibble, low_nibble, high_byte_toNat,
    low_byte_toNat]
  omega

/-- Mask 0xF0FF tests the class and kk. -/
theorem and_F0FF_toNat (w : Word) :
    (w &&& 0xF0FF).toNat = w.toNat / 4096 * 4096 + w.toNat % 256 := by
  rw [and_toNat, show (0xF0FF : Word).extractLsb' 8 8 = 0xF0 from rfl,
    show (0xF0FF : Word).extractLsb' 0 8 = BitVec.allOnes 8 from rfl, high_nibble, high_byte_toNat,
    BitVec.and_allOnes, low_byte_toNat]
  omega

/-- Mask 0xFFFF tests the whole word. -/
theorem and_FFFF (w : Word) : w &&& 0xFFFF = w := BitVec.and_allOnes

/-! ### What each placed field contributes -/

theorem placeX_and (x : RegIdx) : placeX x &&& 0xF000 = 0 ∧ placeX x &&& 0xF00F = 0
    ∧ placeX x &&& 0xF0FF = 0 := by
  revert x; decide

theorem placeY_and (y : RegIdx) : placeY y &&& 0xF000 = 0 ∧ placeY y &&& 0xF00F = 0 := by
  revert y; decide

theorem placeN_and (n : Fin 16) : placeN n &&& 0xF000 = 0 := by
  revert n; decide

theorem placeKK_and (kk : Byte) : placeKK kk &&& 0xF000 = 0 := by
  revert kk; decide

theorem placeNNN_and (nnn : Addr) : placeNNN nnn &&& 0xF000 = 0 := by
  apply BitVec.eq_of_toNat_eq
  rw [and_F000_toNat]
  have := nnn.isLt
  rw [show (0 : Word).toNat = 0 from rfl]
  simp only [placeNNN, BitVec.toNat_setWidth]
  omega

theorem placeX_bits (x : RegIdx) : (placeX x).extractLsb' 8 4 = BitVec.ofFin x
    ∧ (placeX x).extractLsb' 4 4 = 0 ∧ (placeX x).extractLsb' 0 4 = 0
    ∧ (placeX x).extractLsb' 0 8 = 0 := by
  revert x; decide

theorem placeY_bits (y : RegIdx) : (placeY y).extractLsb' 8 4 = 0
    ∧ (placeY y).extractLsb' 4 4 = BitVec.ofFin y ∧ (placeY y).extractLsb' 0 4 = 0 := by
  revert y; decide

theorem placeN_bits (n : Fin 16) : (placeN n).extractLsb' 8 4 = 0
    ∧ (placeN n).extractLsb' 4 4 = 0 ∧ (placeN n).extractLsb' 0 4 = BitVec.ofFin n := by
  revert n; decide

theorem placeKK_bits (kk : Byte) : (placeKK kk).extractLsb' 8 4 = 0
    ∧ (placeKK kk).extractLsb' 0 8 = kk := by
  revert kk; decide

theorem placeNNN_bits (nnn : Addr) : (placeNNN nnn).extractLsb' 0 12 = nnn := by
  apply BitVec.eq_of_toNat_eq
  have := nnn.isLt
  simp only [placeNNN, BitVec.extractLsb'_toNat, BitVec.toNat_setWidth, Nat.shiftRight_zero]
  omega

/-! ### Reading the fields back out of a word put together from them -/

section
variable (m : Word) (x y : RegIdx)

theorem fieldX_of_place (h : m.extractLsb' 8 4 = 0) : fieldX (m ||| placeX x) = x := by
  rw [fieldX, BitVec.extractLsb'_or, h, (placeX_bits x).1]
  simp

theorem fields_of_place_kk (kk : Byte) (h : m.extractLsb' 8 4 = 0) (h' : m.extractLsb' 0 8 = 0) :
    fieldX (m ||| placeX x ||| placeKK kk) = x ∧ fieldKK (m ||| placeX x ||| placeKK kk) = kk := by
  constructor
  · rw [fieldX, BitVec.extractLsb'_or, BitVec.extractLsb'_or, h, (placeX_bits x).1,
      (placeKK_bits kk).1]
    simp
  · rw [fieldKK, BitVec.extractLsb'_or, BitVec.extractLsb'_or, h', (placeX_bits x).2.2.2,
      (placeKK_bits kk).2]
    simp

theorem fields_of_place_y (h : m.extractLsb' 8 4 = 0) (h' : m.extractLsb' 4 4 = 0) :
    fieldX (m ||| placeX x ||| placeY y) = x ∧ fieldY (m ||| placeX x ||| placeY y) = y := by
  constructor
  · rw [fieldX, BitVec.extractLsb'_or, BitVec.extractLsb'_or, h, (placeX_bits x).1,
      (placeY_bits y).1]
    simp
  · rw [fieldY, BitVec.extractLsb'_or, BitVec.extractLsb'_or, h', (placeX_bits x).2.1,
      (placeY_bits y).2.1]
    simp

theorem fields_of_place_yn (n : Fin 16) (h : m.extractLsb' 8 4 = 0) (h' : m.extractLsb' 4 4 = 0)
    (h'' : m.extractLsb' 0 4 = 0) :
    fieldX (m ||| placeX x ||| placeY y ||| placeN n) = x
      ∧ fieldY (m ||| placeX x ||| placeY y ||| placeN n) = y
      ∧ fieldN (m ||| placeX x ||| placeY y ||| placeN n) = n := by
  have e : ∀ k, (m ||| placeX x ||| placeY y ||| placeN n).extractLsb' k 4
      = m.extractLsb' k 4 ||| (placeX x).extractLsb' k 4 ||| (placeY y).extractLsb' k 4
        ||| (placeN n).extractLsb' k 4 := by
    intro k
    rw [BitVec.extractLsb'_or, BitVec.extractLsb'_or, BitVec.extractLsb'_or]
  obtain ⟨x1, x2, x3, _⟩ := placeX_bits x
  obtain ⟨y1, y2, y3⟩ := placeY_bits y
  obtain ⟨n1, n2, n3⟩ := placeN_bits n
  refine ⟨?_, ?_, ?_⟩
  · rw [fieldX, e, h, x1, y1, n1]
    simp
  · rw [fieldY, e, h', x2, y2, n2]
    simp
  · rw [fieldN, e, h'', x3, y3, n3]
    simp

theorem fieldNNN_of_place (nnn : Addr) (h : m.extractLsb' 0 12 = 0) :
    fieldNNN (m ||| placeNNN nnn) = nnn := by
  rw [fieldNNN, BitVec.extractLsb'_or, h, placeNNN_bits]
  simp

end

/-! ### A placed field is a masked word -/

section
variable (w : Word)

theorem placeX_fieldX : placeX (fieldX w) = w &&& 0x0F00 := by
  apply BitVec.eq_of_toNat_eq
  rw [show ∀ x, (placeX x).toNat = 256 * x.val by decide, fieldX_val, and_toNat,
    show (0x0F00 : Word).extractLsb' 8 8 = 0x0F from rfl, low_nibble, high_byte_toNat,
    show (0x0F00 : Word).extractLsb' 0 8 = 0#8 from rfl, BitVec.and_zero, BitVec.toNat_zero]
  omega

theorem placeY_fieldY : placeY (fieldY w) = w &&& 0x00F0 := by
  apply BitVec.eq_of_toNat_eq
  rw [show ∀ y, (placeY y).toNat = 16 * y.val by decide, fieldY_val, and_toNat,
    show (0x00F0 : Word).extractLsb' 0 8 = 0xF0 from rfl, high_nibble, low_byte_toNat,
    show (0x00F0 : Word).extractLsb' 8 8 = 0#8 from rfl, BitVec.and_zero, BitVec.toNat_zero]
  omega

theorem placeN_fieldN : placeN (fieldN w) = w &&& 0x000F := by
  apply BitVec.eq_of_toNat_eq
  rw [show ∀ n, (placeN n).toNat = n.val by decide, fieldN_val, and_toNat,
    show (0x000F : Word).extractLsb' 0 8 = 0x0F from rfl, low_nibble, low_byte_toNat,
    show (0x000F : Word).extractLsb' 8 8 = 0#8 from rfl, BitVec.and_zero, BitVec.toNat_zero]
  omega

theorem placeKK_fieldKK : placeKK (fieldKK w) = w &&& 0x00FF := by
  apply BitVec.eq_of_toNat_eq
  rw [placeKK, BitVec.toNat_setWidth, fieldKK_toNat, and_toNat,
    show (0x00FF : Word).extractLsb' 0 8 = BitVec.allOnes 8 from rfl, BitVec.and_allOnes,
    low_byte_toNat, show (0x00FF : Word).extractLsb' 8 8 = 0#8 from rfl, BitVec.and_zero,
    BitVec.toNat_zero]
  omega

theorem placeNNN_fieldNNN : placeNNN (fieldNNN w) = w &&& 0x0FFF := by
  apply BitVec.eq_of_toNat_eq
  rw [placeNNN, BitVec.toNat_setWidth, fieldNNN_toNat, and_toNat,
    show (0x0FFF : Word).extractLsb' 0 8 = BitVec.allOnes 8 from rfl, BitVec.and_allOnes,
    low_byte_toNat, show (0x0FFF : Word).extractLsb' 8 8 = 0x0F from rfl, low_nibble,
    high_byte_toNat]
  omega

/-! ### What it is to match a row, in numbers -/

theorem and_F000_eq_iff {c : Nat} (hc : c < 16) :
    w &&& 0xF000 = BitVec.ofNat 16 (c * 4096) ↔ (fieldClass w).val = c := by
  rw [fieldClass_val, ← BitVec.toNat_inj, and_F000_toNat, BitVec.toNat_ofNat]
  omega

theorem and_F00F_eq_iff {c n : Nat} (hc : c < 16) (hn : n < 16) :
    w &&& 0xF00F = BitVec.ofNat 16 (c * 4096 + n)
      ↔ (fieldClass w).val = c ∧ (fieldN w).val = n := by
  rw [fieldClass_val, fieldN_val, ← BitVec.toNat_inj, and_F00F_toNat, BitVec.toNat_ofNat]
  omega

theorem and_F0FF_eq_iff {c n : Nat} (hc : c < 16) (hn : n < 256) :
    w &&& 0xF0FF = BitVec.ofNat 16 (c * 4096 + n)
      ↔ (fieldClass w).val = c ∧ (fieldKK w).toNat = n := by
  rw [fieldClass_val, fieldKK_toNat, ← BitVec.toNat_inj, and_F0FF_toNat, BitVec.toNat_ofNat]
  omega

end

/-! ### The rows (R63) -/

/-- No two rows ask for the same word: where both masks look, the two match values differ. -/
theorem opcodeRows_pairwise_distinct :
    opcodeRows.Pairwise (fun a b => a.bits &&& b.mask ≠ b.bits &&& a.mask) := by
  decide

/-- No row covers the zero word. -/
theorem opcodeRows_bits_ne_zero : ∀ r ∈ opcodeRows, r.bits ≠ 0 := by
  decide

/-! ### Bytes (R47) -/

theorem bytesWord_toNat (hi lo : Byte) : (bytesWord hi lo).toNat = hi.toNat * 256 + lo.toNat := by
  have h := hi.isLt
  have l := lo.isLt
  simp only [bytesWord, BitVec.toNat_or, BitVec.toNat_shiftLeft, BitVec.toNat_setWidth]
  rw [Nat.mod_eq_of_lt (a := hi.toNat) (by omega), Nat.mod_eq_of_lt (a := lo.toNat) (by omega),
    Nat.shiftLeft_eq, Nat.mod_eq_of_lt (by omega), ← Nat.shiftLeft_eq,
    ← Nat.shiftLeft_add_eq_or_of_lt (by omega), Nat.shiftLeft_eq]

/-- Splitting a word into bytes and joining them gives it back. -/
theorem bytesWord_of_bytes (w : Word) : bytesWord (w.extractLsb' 8 8) (w.extractLsb' 0 8) = w := by
  apply BitVec.eq_of_toNat_eq
  rw [bytesWord_toNat, high_byte_toNat, low_byte_toNat]
  omega

end Sys2Proof
end

