-- ==== Sys2Proof/Laws/State.lean ====
section
/-! SUPPORT. The small lemmas of State: every field, and every read of one cell, after every update.
All are true by rfl; no proof need unfold an update. -/

namespace Sys2Proof.Machine

variable (s : State)

/-! ### writeMem -/

@[simp] theorem writeMem_v (a : Addr) (b : Byte) : (s.writeMem a b).v = s.v := rfl
@[simp] theorem writeMem_i (a : Addr) (b : Byte) : (s.writeMem a b).i = s.i := rfl
@[simp] theorem writeMem_pc (a : Addr) (b : Byte) : (s.writeMem a b).pc = s.pc := rfl
@[simp] theorem writeMem_stack (a : Addr) (b : Byte) : (s.writeMem a b).stack = s.stack := rfl
@[simp] theorem writeMem_sp (a : Addr) (b : Byte) : (s.writeMem a b).sp = s.sp := rfl
@[simp] theorem writeMem_dt (a : Addr) (b : Byte) : (s.writeMem a b).dt = s.dt := rfl
@[simp] theorem writeMem_st (a : Addr) (b : Byte) : (s.writeMem a b).st = s.st := rfl
@[simp] theorem writeMem_mem (a : Addr) (b : Byte) :
    (s.writeMem a b).mem = Memory.write (resetByte s.cfg) s.mem a.toNat b := rfl
@[simp] theorem writeMem_key (a : Addr) (b : Byte) : (s.writeMem a b).key = s.key := rfl
@[simp] theorem writeMem_fb (a : Addr) (b : Byte) : (s.writeMem a b).fb = s.fb := rfl
@[simp] theorem writeMem_status (a : Addr) (b : Byte) : (s.writeMem a b).status = s.status := rfl
@[simp] theorem writeMem_latchedKey (a : Addr) (b : Byte) :
    (s.writeMem a b).latchedKey = s.latchedKey := rfl
@[simp] theorem writeMem_cfg (a : Addr) (b : Byte) : (s.writeMem a b).cfg = s.cfg := rfl
@[simp] theorem writeMem_rngDraws (a : Addr) (b : Byte) :
    (s.writeMem a b).rngDraws = s.rngDraws := rfl
@[simp] theorem writeMem_readV (a : Addr) (b : Byte) (y : RegIdx) :
    (s.writeMem a b).readV y = s.readV y := rfl
@[simp] theorem writeMem_stackAt (a : Addr) (b : Byte) (j : Fin 16) :
    (s.writeMem a b).stackAt j = s.stackAt j := rfl
@[simp] theorem writeMem_keyAt (a : Addr) (b : Byte) (k' : KeyIdx) :
    (s.writeMem a b).keyAt k' = s.keyAt k' := rfl

/-! ### writeV -/

@[simp] theorem writeV_v (x : RegIdx) (b : Byte) : (s.writeV x b).v = s.v.set x.val b := rfl
@[simp] theorem writeV_i (x : RegIdx) (b : Byte) : (s.writeV x b).i = s.i := rfl
@[simp] theorem writeV_pc (x : RegIdx) (b : Byte) : (s.writeV x b).pc = s.pc := rfl
@[simp] theorem writeV_stack (x : RegIdx) (b : Byte) : (s.writeV x b).stack = s.stack := rfl
@[simp] theorem writeV_sp (x : RegIdx) (b : Byte) : (s.writeV x b).sp = s.sp := rfl
@[simp] theorem writeV_dt (x : RegIdx) (b : Byte) : (s.writeV x b).dt = s.dt := rfl
@[simp] theorem writeV_st (x : RegIdx) (b : Byte) : (s.writeV x b).st = s.st := rfl
@[simp] theorem writeV_mem (x : RegIdx) (b : Byte) : (s.writeV x b).mem = s.mem := rfl
@[simp] theorem writeV_key (x : RegIdx) (b : Byte) : (s.writeV x b).key = s.key := rfl
@[simp] theorem writeV_fb (x : RegIdx) (b : Byte) : (s.writeV x b).fb = s.fb := rfl
@[simp] theorem writeV_status (x : RegIdx) (b : Byte) : (s.writeV x b).status = s.status := rfl
@[simp] theorem writeV_latchedKey (x : RegIdx) (b : Byte) :
    (s.writeV x b).latchedKey = s.latchedKey := rfl
@[simp] theorem writeV_cfg (x : RegIdx) (b : Byte) : (s.writeV x b).cfg = s.cfg := rfl
@[simp] theorem writeV_rngDraws (x : RegIdx) (b : Byte) :
    (s.writeV x b).rngDraws = s.rngDraws := rfl
@[simp] theorem writeV_readMem (x : RegIdx) (b : Byte) (a' : Addr) :
    (s.writeV x b).readMem a' = s.readMem a' := rfl
@[simp] theorem writeV_stackAt (x : RegIdx) (b : Byte) (j : Fin 16) :
    (s.writeV x b).stackAt j = s.stackAt j := rfl
@[simp] theorem writeV_keyAt (x : RegIdx) (b : Byte) (k' : KeyIdx) :
    (s.writeV x b).keyAt k' = s.keyAt k' := rfl

/-! ### setI -/

@[simp] theorem setI_v (a : Word) : (s.setI a).v = s.v := rfl
@[simp] theorem setI_i (a : Word) : (s.setI a).i = a := rfl
@[simp] theorem setI_pc (a : Word) : (s.setI a).pc = s.pc := rfl
@[simp] theorem setI_stack (a : Word) : (s.setI a).stack = s.stack := rfl
@[simp] theorem setI_sp (a : Word) : (s.setI a).sp = s.sp := rfl
@[simp] theorem setI_dt (a : Word) : (s.setI a).dt = s.dt := rfl
@[simp] theorem setI_st (a : Word) : (s.setI a).st = s.st := rfl
@[simp] theorem setI_mem (a : Word) : (s.setI a).mem = s.mem := rfl
@[simp] theorem setI_key (a : Word) : (s.setI a).key = s.key := rfl
@[simp] theorem setI_fb (a : Word) : (s.setI a).fb = s.fb := rfl
@[simp] theorem setI_status (a : Word) : (s.setI a).status = s.status := rfl
@[simp] theorem setI_latchedKey (a : Word) : (s.setI a).latchedKey = s.latchedKey := rfl
@[simp] theorem setI_cfg (a : Word) : (s.setI a).cfg = s.cfg := rfl
@[simp] theorem setI_rngDraws (a : Word) : (s.setI a).rngDraws = s.rngDraws := rfl
@[simp] theorem setI_readV (a : Word) (y : RegIdx) :
    (s.setI a).readV y = s.readV y := rfl
@[simp] theorem setI_readMem (a : Word) (a' : Addr) :
    (s.setI a).readMem a' = s.readMem a' := rfl
@[simp] theorem setI_stackAt (a : Word) (j : Fin 16) :
    (s.setI a).stackAt j = s.stackAt j := rfl
@[simp] theorem setI_keyAt (a : Word) (k' : KeyIdx) :
    (s.setI a).keyAt k' = s.keyAt k' := rfl

/-! ### setPc -/

@[simp] theorem setPc_v (a : Word) : (s.setPc a).v = s.v := rfl
@[simp] theorem setPc_i (a : Word) : (s.setPc a).i = s.i := rfl
@[simp] theorem setPc_pc (a : Word) : (s.setPc a).pc = a := rfl
@[simp] theorem setPc_stack (a : Word) : (s.setPc a).stack = s.stack := rfl
@[simp] theorem setPc_sp (a : Word) : (s.setPc a).sp = s.sp := rfl
@[simp] theorem setPc_dt (a : Word) : (s.setPc a).dt = s.dt := rfl
@[simp] theorem setPc_st (a : Word) : (s.setPc a).st = s.st := rfl
@[simp] theorem setPc_mem (a : Word) : (s.setPc a).mem = s.mem := rfl
@[simp] theorem setPc_key (a : Word) : (s.setPc a).key = s.key := rfl
@[simp] theorem setPc_fb (a : Word) : (s.setPc a).fb = s.fb := rfl
@[simp] theorem setPc_status (a : Word) : (s.setPc a).status = s.status := rfl
@[simp] theorem setPc_latchedKey (a : Word) : (s.setPc a).latchedKey = s.latchedKey := rfl
@[simp] theorem setPc_cfg (a : Word) : (s.setPc a).cfg = s.cfg := rfl
@[simp] theorem setPc_rngDraws (a : Word) : (s.setPc a).rngDraws = s.rngDraws := rfl
@[simp] theorem setPc_readV (a : Word) (y : RegIdx) :
    (s.setPc a).readV y = s.readV y := rfl
@[simp] theorem setPc_readMem (a : Word) (a' : Addr) :
    (s.setPc a).readMem a' = s.readMem a' := rfl
@[simp] theorem setPc_stackAt (a : Word) (j : Fin 16) :
    (s.setPc a).stackAt j = s.stackAt j := rfl
@[simp] theorem setPc_keyAt (a : Word) (k' : KeyIdx) :
    (s.setPc a).keyAt k' = s.keyAt k' := rfl

/-! ### setDt -/

@[simp] theorem setDt_v (b : Byte) : (s.setDt b).v = s.v := rfl
@[simp] theorem setDt_i (b : Byte) : (s.setDt b).i = s.i := rfl
@[simp] theorem setDt_pc (b : Byte) : (s.setDt b).pc = s.pc := rfl
@[simp] theorem setDt_stack (b : Byte) : (s.setDt b).stack = s.stack := rfl
@[simp] theorem setDt_sp (b : Byte) : (s.setDt b).sp = s.sp := rfl
@[simp] theorem setDt_dt (b : Byte) : (s.setDt b).dt = b := rfl
@[simp] theorem setDt_st (b : Byte) : (s.setDt b).st = s.st := rfl
@[simp] theorem setDt_mem (b : Byte) : (s.setDt b).mem = s.mem := rfl
@[simp] theorem setDt_key (b : Byte) : (s.setDt b).key = s.key := rfl
@[simp] theorem setDt_fb (b : Byte) : (s.setDt b).fb = s.fb := rfl
@[simp] theorem setDt_status (b : Byte) : (s.setDt b).status = s.status := rfl
@[simp] theorem setDt_latchedKey (b : Byte) : (s.setDt b).latchedKey = s.latchedKey := rfl
@[simp] theorem setDt_cfg (b : Byte) : (s.setDt b).cfg = s.cfg := rfl
@[simp] theorem setDt_rngDraws (b : Byte) : (s.setDt b).rngDraws = s.rngDraws := rfl
@[simp] theorem setDt_readV (b : Byte) (y : RegIdx) :
    (s.setDt b).readV y = s.readV y := rfl
@[simp] theorem setDt_readMem (b : Byte) (a' : Addr) :
    (s.setDt b).readMem a' = s.readMem a' := rfl
@[simp] theorem setDt_stackAt (b : Byte) (j : Fin 16) :
    (s.setDt b).stackAt j = s.stackAt j := rfl
@[simp] theorem setDt_keyAt (b : Byte) (k' : KeyIdx) :
    (s.setDt b).keyAt k' = s.keyAt k' := rfl

/-! ### setSt -/

@[simp] theorem setSt_v (b : Byte) : (s.setSt b).v = s.v := rfl
@[simp] theorem setSt_i (b : Byte) : (s.setSt b).i = s.i := rfl
@[simp] theorem setSt_pc (b : Byte) : (s.setSt b).pc = s.pc := rfl
@[simp] theorem setSt_stack (b : Byte) : (s.setSt b).stack = s.stack := rfl
@[simp] theorem setSt_sp (b : Byte) : (s.setSt b).sp = s.sp := rfl
@[simp] theorem setSt_dt (b : Byte) : (s.setSt b).dt = s.dt := rfl
@[simp] theorem setSt_st (b : Byte) : (s.setSt b).st = b := rfl
@[simp] theorem setSt_mem (b : Byte) : (s.setSt b).mem = s.mem := rfl
@[simp] theorem setSt_key (b : Byte) : (s.setSt b).key = s.key := rfl
@[simp] theorem setSt_fb (b : Byte) : (s.setSt b).fb = s.fb := rfl
@[simp] theorem setSt_status (b : Byte) : (s.setSt b).status = s.status := rfl
@[simp] theorem setSt_latchedKey (b : Byte) : (s.setSt b).latchedKey = s.latchedKey := rfl
@[simp] theorem setSt_cfg (b : Byte) : (s.setSt b).cfg = s.cfg := rfl
@[simp] theorem setSt_rngDraws (b : Byte) : (s.setSt b).rngDraws = s.rngDraws := rfl
@[simp] theorem setSt_readV (b : Byte) (y : RegIdx) :
    (s.setSt b).readV y = s.readV y := rfl
@[simp] theorem setSt_readMem (b : Byte) (a' : Addr) :
    (s.setSt b).readMem a' = s.readMem a' := rfl
@[simp] theorem setSt_stackAt (b : Byte) (j : Fin 16) :
    (s.setSt b).stackAt j = s.stackAt j := rfl
@[simp] theorem setSt_keyAt (b : Byte) (k' : KeyIdx) :
    (s.setSt b).keyAt k' = s.keyAt k' := rfl

/-! ### countDraw -/

@[simp] theorem countDraw_v : (s.countDraw).v = s.v := rfl
@[simp] theorem countDraw_i : (s.countDraw).i = s.i := rfl
@[simp] theorem countDraw_pc : (s.countDraw).pc = s.pc := rfl
@[simp] theorem countDraw_stack : (s.countDraw).stack = s.stack := rfl
@[simp] theorem countDraw_sp : (s.countDraw).sp = s.sp := rfl
@[simp] theorem countDraw_dt : (s.countDraw).dt = s.dt := rfl
@[simp] theorem countDraw_st : (s.countDraw).st = s.st := rfl
@[simp] theorem countDraw_mem : (s.countDraw).mem = s.mem := rfl
@[simp] theorem countDraw_key : (s.countDraw).key = s.key := rfl
@[simp] theorem countDraw_fb : (s.countDraw).fb = s.fb := rfl
@[simp] theorem countDraw_status : (s.countDraw).status = s.status := rfl
@[simp] theorem countDraw_latchedKey : (s.countDraw).latchedKey = s.latchedKey := rfl
@[simp] theorem countDraw_cfg : (s.countDraw).cfg = s.cfg := rfl
@[simp] theorem countDraw_rngDraws : (s.countDraw).rngDraws = s.rngDraws + 1 := rfl
@[simp] theorem countDraw_readV (y : RegIdx) :
    (s.countDraw).readV y = s.readV y := rfl
@[simp] theorem countDraw_readMem (a' : Addr) :
    (s.countDraw).readMem a' = s.readMem a' := rfl
@[simp] theorem countDraw_stackAt (j : Fin 16) :
    (s.countDraw).stackAt j = s.stackAt j := rfl
@[simp] theorem countDraw_keyAt (k' : KeyIdx) :
    (s.countDraw).keyAt k' = s.keyAt k' := rfl

/-! ### setFb -/

@[simp] theorem setFb_v (g : Framebuffer) : (s.setFb g).v = s.v := rfl
@[simp] theorem setFb_i (g : Framebuffer) : (s.setFb g).i = s.i := rfl
@[simp] theorem setFb_pc (g : Framebuffer) : (s.setFb g).pc = s.pc := rfl
@[simp] theorem setFb_stack (g : Framebuffer) : (s.setFb g).stack = s.stack := rfl
@[simp] theorem setFb_sp (g : Framebuffer) : (s.setFb g).sp = s.sp := rfl
@[simp] theorem setFb_dt (g : Framebuffer) : (s.setFb g).dt = s.dt := rfl
@[simp] theorem setFb_st (g : Framebuffer) : (s.setFb g).st = s.st := rfl
@[simp] theorem setFb_mem (g : Framebuffer) : (s.setFb g).mem = s.mem := rfl
@[simp] theorem setFb_key (g : Framebuffer) : (s.setFb g).key = s.key := rfl
@[simp] theorem setFb_fb (g : Framebuffer) : (s.setFb g).fb = g := rfl
@[simp] theorem setFb_status (g : Framebuffer) : (s.setFb g).status = s.status := rfl
@[simp] theorem setFb_latchedKey (g : Framebuffer) : (s.setFb g).latchedKey = s.latchedKey := rfl
@[simp] theorem setFb_cfg (g : Framebuffer) : (s.setFb g).cfg = s.cfg := rfl
@[simp] theorem setFb_rngDraws (g : Framebuffer) : (s.setFb g).rngDraws = s.rngDraws := rfl
@[simp] theorem setFb_readV (g : Framebuffer) (y : RegIdx) :
    (s.setFb g).readV y = s.readV y := rfl
@[simp] theorem setFb_readMem (g : Framebuffer) (a' : Addr) :
    (s.setFb g).readMem a' = s.readMem a' := rfl
@[simp] theorem setFb_stackAt (g : Framebuffer) (j : Fin 16) :
    (s.setFb g).stackAt j = s.stackAt j := rfl
@[simp] theorem setFb_keyAt (g : Framebuffer) (k' : KeyIdx) :
    (s.setFb g).keyAt k' = s.keyAt k' := rfl

/-! ### setKeyAt -/

@[simp] theorem setKeyAt_v (k : KeyIdx) (p : Bool) : (s.setKeyAt k p).v = s.v := rfl
@[simp] theorem setKeyAt_i (k : KeyIdx) (p : Bool) : (s.setKeyAt k p).i = s.i := rfl
@[simp] theorem setKeyAt_pc (k : KeyIdx) (p : Bool) : (s.setKeyAt k p).pc = s.pc := rfl
@[simp] theorem setKeyAt_stack (k : KeyIdx) (p : Bool) : (s.setKeyAt k p).stack = s.stack := rfl
@[simp] theorem setKeyAt_sp (k : KeyIdx) (p : Bool) : (s.setKeyAt k p).sp = s.sp := rfl
@[simp] theorem setKeyAt_dt (k : KeyIdx) (p : Bool) : (s.setKeyAt k p).dt = s.dt := rfl
@[simp] theorem setKeyAt_st (k : KeyIdx) (p : Bool) : (s.setKeyAt k p).st = s.st := rfl
@[simp] theorem setKeyAt_mem (k : KeyIdx) (p : Bool) : (s.setKeyAt k p).mem = s.mem := rfl
@[simp] theorem setKeyAt_key (k : KeyIdx) (p : Bool) :
    (s.setKeyAt k p).key = s.key.set k.val p := rfl
@[simp] theorem setKeyAt_fb (k : KeyIdx) (p : Bool) : (s.setKeyAt k p).fb = s.fb := rfl
@[simp] theorem setKeyAt_status (k : KeyIdx) (p : Bool) : (s.setKeyAt k p).status = s.status := rfl
@[simp] theorem setKeyAt_latchedKey (k : KeyIdx) (p : Bool) :
    (s.setKeyAt k p).latchedKey = s.latchedKey := rfl
@[simp] theorem setKeyAt_cfg (k : KeyIdx) (p : Bool) : (s.setKeyAt k p).cfg = s.cfg := rfl
@[simp] theorem setKeyAt_rngDraws (k : KeyIdx) (p : Bool) :
    (s.setKeyAt k p).rngDraws = s.rngDraws := rfl
@[simp] theorem setKeyAt_readV (k : KeyIdx) (p : Bool) (y : RegIdx) :
    (s.setKeyAt k p).readV y = s.readV y := rfl
@[simp] theorem setKeyAt_readMem (k : KeyIdx) (p : Bool) (a' : Addr) :
    (s.setKeyAt k p).readMem a' = s.readMem a' := rfl
@[simp] theorem setKeyAt_stackAt (k : KeyIdx) (p : Bool) (j : Fin 16) :
    (s.setKeyAt k p).stackAt j = s.stackAt j := rfl

/-! ### setStatus -/

@[simp] theorem setStatus_v (q : Status) : (s.setStatus q).v = s.v := rfl
@[simp] theorem setStatus_i (q : Status) : (s.setStatus q).i = s.i := rfl
@[simp] theorem setStatus_pc (q : Status) : (s.setStatus q).pc = s.pc := rfl
@[simp] theorem setStatus_stack (q : Status) : (s.setStatus q).stack = s.stack := rfl
@[simp] theorem setStatus_sp (q : Status) : (s.setStatus q).sp = s.sp := rfl
@[simp] theorem setStatus_dt (q : Status) : (s.setStatus q).dt = s.dt := rfl
@[simp] theorem setStatus_st (q : Status) : (s.setStatus q).st = s.st := rfl
@[simp] theorem setStatus_mem (q : Status) : (s.setStatus q).mem = s.mem := rfl
@[simp] theorem setStatus_key (q : Status) : (s.setStatus q).key = s.key := rfl
@[simp] theorem setStatus_fb (q : Status) : (s.setStatus q).fb = s.fb := rfl
@[simp] theorem setStatus_status (q : Status) : (s.setStatus q).status = q := rfl
@[simp] theorem setStatus_latchedKey (q : Status) : (s.setStatus q).latchedKey = s.latchedKey := rfl
@[simp] theorem setStatus_cfg (q : Status) : (s.setStatus q).cfg = s.cfg := rfl
@[simp] theorem setStatus_rngDraws (q : Status) : (s.setStatus q).rngDraws = s.rngDraws := rfl
@[simp] theorem setStatus_readV (q : Status) (y : RegIdx) :
    (s.setStatus q).readV y = s.readV y := rfl
@[simp] theorem setStatus_readMem (q : Status) (a' : Addr) :
    (s.setStatus q).readMem a' = s.readMem a' := rfl
@[simp] theorem setStatus_stackAt (q : Status) (j : Fin 16) :
    (s.setStatus q).stackAt j = s.stackAt j := rfl
@[simp] theorem setStatus_keyAt (q : Status) (k' : KeyIdx) :
    (s.setStatus q).keyAt k' = s.keyAt k' := rfl

/-! ### setLatch -/

@[simp] theorem setLatch_v (l : Option KeyIdx) : (s.setLatch l).v = s.v := rfl
@[simp] theorem setLatch_i (l : Option KeyIdx) : (s.setLatch l).i = s.i := rfl
@[simp] theorem setLatch_pc (l : Option KeyIdx) : (s.setLatch l).pc = s.pc := rfl
@[simp] theorem setLatch_stack (l : Option KeyIdx) : (s.setLatch l).stack = s.stack := rfl
@[simp] theorem setLatch_sp (l : Option KeyIdx) : (s.setLatch l).sp = s.sp := rfl
@[simp] theorem setLatch_dt (l : Option KeyIdx) : (s.setLatch l).dt = s.dt := rfl
@[simp] theorem setLatch_st (l : Option KeyIdx) : (s.setLatch l).st = s.st := rfl
@[simp] theorem setLatch_mem (l : Option KeyIdx) : (s.setLatch l).mem = s.mem := rfl
@[simp] theorem setLatch_key (l : Option KeyIdx) : (s.setLatch l).key = s.key := rfl
@[simp] theorem setLatch_fb (l : Option KeyIdx) : (s.setLatch l).fb = s.fb := rfl
@[simp] theorem setLatch_status (l : Option KeyIdx) : (s.setLatch l).status = s.status := rfl
@[simp] theorem setLatch_latchedKey (l : Option KeyIdx) : (s.setLatch l).latchedKey = l := rfl
@[simp] theorem setLatch_cfg (l : Option KeyIdx) : (s.setLatch l).cfg = s.cfg := rfl
@[simp] theorem setLatch_rngDraws (l : Option KeyIdx) : (s.setLatch l).rngDraws = s.rngDraws := rfl
@[simp] theorem setLatch_readV (l : Option KeyIdx) (y : RegIdx) :
    (s.setLatch l).readV y = s.readV y := rfl
@[simp] theorem setLatch_readMem (l : Option KeyIdx) (a' : Addr) :
    (s.setLatch l).readMem a' = s.readMem a' := rfl
@[simp] theorem setLatch_stackAt (l : Option KeyIdx) (j : Fin 16) :
    (s.setLatch l).stackAt j = s.stackAt j := rfl
@[simp] theorem setLatch_keyAt (l : Option KeyIdx) (k' : KeyIdx) :
    (s.setLatch l).keyAt k' = s.keyAt k' := rfl

/-! ### Initialization -/

@[simp] theorem init_readV (cfg : Config) (x : RegIdx) : (State.init cfg).readV x = 0 := by
  simp [State.readV, State.init]

@[simp] theorem init_stackAt (cfg : Config) (j : Fin 16) : (State.init cfg).stackAt j = 0 := by
  simp [State.stackAt, State.init]

@[simp] theorem init_keyAt (cfg : Config) (k : KeyIdx) : (State.init cfg).keyAt k = false := by
  simp [State.keyAt, State.init]

/-- Memory of a new machine reads as the reset contents. -/
@[simp] theorem init_readMem (cfg : Config) (a : Addr) :
    (State.init cfg).readMem a = resetByte cfg a.toNat := rfl

/-! ### Writing back what is there changes nothing -/

@[simp] theorem setPc_self : s.setPc s.pc = s := rfl

theorem skipIf_eq_setPc (c : Bool) : s.skipIf c = s.setPc (if c then s.pc + 2 else s.pc) := by
  cases c <;> rfl

/-- Taking a fatal error after the fetch leaves the state before the fetch, but for Status. -/
theorem raiseFatal_afterAdvance (e : Fault) :
    (s.setPc (s.pc + 2)).raiseFatal e = s.enterFault e := by
  simp [State.raiseFatal, State.enterFault, State.setPc, State.setStatus]

end Sys2Proof.Machine
end

