-- ==== Sys2Proof/Laws/Registers.lean ====
section
/-! SUPPORT. Read-after-write of the V registers, the stack, the keypad and the framebuffer. -/

namespace Sys2Proof.Machine

variable (s : State)

@[simp] theorem readV_writeV_same (x : RegIdx) (b : Byte) : (s.writeV x b).readV x = b := by
  simp [State.readV, State.writeV]

theorem readV_writeV_of_ne {x y : RegIdx} (b : Byte) (h : y ≠ x) :
    (s.writeV x b).readV y = s.readV y := by
  have : x.val ≠ y.val := fun e => h (Fin.ext e.symm)
  simp [State.readV, State.writeV, Vector.getElem_set_ne _ _ this]

theorem readV_writeV (x y : RegIdx) (b : Byte) :
    (s.writeV x b).readV y = if y = x then b else s.readV y := by
  by_cases h : y = x
  · subst h; simp
  · simp [h, readV_writeV_of_ne]

/-- The flag is the final value of VF, whatever x is. -/
@[simp] theorem writeVFlag_readV_flag (x : RegIdx) (r f : Byte) :
    (s.writeVFlag x r f).readV 15 = f := by
  simp [State.writeVFlag]

theorem writeVFlag_readV_result {x : RegIdx} (r f : Byte) (h : x ≠ 15) :
    (s.writeVFlag x r f).readV x = r := by
  simp [State.writeVFlag, readV_writeV, h]

theorem writeVFlag_readV_of_ne {x y : RegIdx} (r f : Byte) (hx : y ≠ x) (h15 : y ≠ 15) :
    (s.writeVFlag x r f).readV y = s.readV y := by
  simp [State.writeVFlag, readV_writeV, hx, h15]

/-- `writeVFlag` touches no field but the V registers. -/
theorem writeVFlag_eq (x : RegIdx) (r f : Byte) :
    s.writeVFlag x r f = { s with v := (s.writeVFlag x r f).v } := rfl

/-- States with the same registers, cell by cell, have the same register file. -/
theorem v_ext {s t : State} (h : ∀ x, t.readV x = s.readV x) : t.v = s.v := by
  apply Vector.ext
  intro n hn
  exact h ⟨n, hn⟩

/-! ### The call stack (10_state.md R27) -/

theorem push_of_full (a : Word) (h : s.sp.val = 16) : s.push a = none := by
  simp [State.push, h]

/-- Everything a push that does not overflow does. -/
theorem push_of_room (a : Word) (j : Fin 16) (h : s.sp.val = j.val) :
    ∃ t, s.push a = some t ∧ t.stackAt j = a ∧ (∀ k, k ≠ j → t.stackAt k = s.stackAt k)
      ∧ t.sp.val = s.sp.val + 1 ∧ t = { s with stack := t.stack, sp := t.sp } := by
  have hlt : s.sp.val < 16 := by omega
  refine ⟨_, dif_pos hlt, ?_, ?_, rfl, rfl⟩
  · simp [State.stackAt, h]
  · intro k hk
    have : s.sp.val ≠ k.val := fun e => hk (Fin.ext (by omega))
    simp [State.stackAt, Vector.getElem_set_ne _ _ this]

theorem pop_of_empty (h : s.sp.val = 0) : s.pop = none := by
  simp [State.pop, h]

/-- Everything a pop that does not underflow does; the entry keeps its value (R28). -/
theorem pop_of_live (j : Fin 16) (h : s.sp.val = j.val + 1) :
    ∃ t, s.pop = some (s.stackAt j, t) ∧ t.sp.val = j.val ∧ t = { s with sp := t.sp } := by
  have hpos : 0 < s.sp.val := by omega
  refine ⟨{ s with sp := ⟨j.val, by omega⟩ }, ?_, rfl, rfl⟩
  simp [State.pop, State.stackAt, h]

/-! ### The keypad -/

theorem keyAt_setKeyAt (k j : KeyIdx) (p : Bool) :
    (s.setKeyAt k p).keyAt j = if j = k then p else s.keyAt j := by
  by_cases h : j = k
  · subst h; simp [State.keyAt, State.setKeyAt]
  · have : k.val ≠ j.val := fun e => h (Fin.ext e.symm)
    simp [State.keyAt, State.setKeyAt, Vector.getElem_set_ne _ _ this, h]

/-- The key a value names is the value (45_timers_keys.md R121). -/
theorem keyNumber_of_eq {v : Byte} {k : KeyIdx} (h : v.toNat = k.val) : keyNumber v = some k := by
  simp [keyNumber, h]

theorem keyNumber_of_large {v : Byte} (h : 15 < v.toNat) : keyNumber v = none := by
  simp [keyNumber]; omega

/-! ### The framebuffer -/

@[simp] theorem clearFramebuffer_pixel (row : Fin 32) (col : Fin 64) :
    clearFramebuffer.pixel row col = false := by
  simp [Framebuffer.pixel, clearFramebuffer]

theorem flip_pixel (fb : Framebuffer) (row r : Fin 32) (col c : Fin 64) :
    (fb.flip row col).pixel r c
      = if r = row ∧ c = col then !fb.pixel r c else fb.pixel r c := by
  unfold Framebuffer.flip Framebuffer.pixel
  rw [Vector.getElem_set]
  by_cases hr : row.val = r.val
  · have hr' : r = row := Fin.ext hr.symm
    subst hr'
    by_cases hc : col.val = c.val
    · have hc' : c = col := Fin.ext hc.symm
      subst hc'; simp
    · have hc' : ¬ c = col := fun e => hc (by rw [e])
      simp [Vector.getElem_set_ne _ _ hc, hc']
  · have hr' : ¬ r = row := fun e => hr (by rw [e])
    simp [hr, hr']

end Sys2Proof.Machine
end

