-- ==== Sys2Proof/Laws/Display.lean ====
section
/-! SUPPORT. What the draw loop does to one cell (44_display.md R118, R119). A drawing is followed
bit by bit; the closed form for a whole sprite follows from `drawSprite_pixel`. -/

namespace Sys2Proof.Machine

/-- R118's bit test, most significant bit first. -/
theorem spriteBit_eq (b : Byte) {c : Nat} (hc : c < 8) : spriteBit b c = b.getLsbD (7 - c) := by
  revert b
  interval_cases c <;> decide

/-- One set sprite bit, at one cell. -/
theorem drawBit_pixel (row r : Fin 32) (col c : Fin 64) (d : Drawing) :
    (drawBit row col d).fb.pixel r c
      = if r = row ∧ c = col then !d.fb.pixel r c else d.fb.pixel r c :=
  flip_pixel _ _ _ _ _

/-- The columns of one sprite row are distinct (R119). -/
theorem wrapCol_inj {x0 : Byte} {c c' : Nat} (h : c < 8) (h' : c' < 8)
    (e : wrapCol x0 c = wrapCol x0 c') : c = c' := by
  have := congrArg Fin.val e
  simp only [wrapCol, Fin.ofNat] at this
  omega

/-- The rows of one sprite are distinct (R119). -/
theorem wrapRow_inj {y0 : Byte} {r r' : Nat} (h : r < 32) (h' : r' < 32)
    (e : wrapRow y0 r = wrapRow y0 r') : r = r' := by
  have := congrArg Fin.val e
  simp only [wrapRow, Fin.ofNat] at this
  omega

/-- The first `m` columns of one sprite row light this cell. -/
def rowLights (x0 y0 : Byte) (r : Nat) (b : Byte) (m : Nat) (row : Fin 32) (col : Fin 64) : Prop :=
  ∃ c < m, spriteBit b c = true ∧ row = wrapRow y0 r ∧ col = wrapCol x0 c

/-- What the first `m` columns of a sprite row do: they flip the cells they light, and report a
collision exactly when one of those cells was set. -/
theorem drawRow_columns (x0 y0 : Byte) (r : Nat) (b : Byte) (d : Drawing) (m : Nat) (hm : m ≤ 8) :
    let e := (List.range m).foldl
      (fun d c => if spriteBit b c then drawBit (wrapRow y0 r) (wrapCol x0 c) d else d) d
    (∀ row col, (rowLights x0 y0 r b m row col → e.fb.pixel row col = !d.fb.pixel row col)
      ∧ (¬ rowLights x0 y0 r b m row col → e.fb.pixel row col = d.fb.pixel row col))
    ∧ (e.collision = true ↔ d.collision = true
        ∨ ∃ row col, rowLights x0 y0 r b m row col ∧ d.fb.pixel row col = true) := by
  induction m with
  | zero => simp [rowLights]
  | succ m ih =>
    obtain ⟨ihp, ihc⟩ := ih (by omega)
    simp only [List.range_succ, List.foldl_append, List.foldl_cons, List.foldl_nil]
    set e := (List.range m).foldl
      (fun d c => if spriteBit b c then drawBit (wrapRow y0 r) (wrapCol x0 c) d else d) d with he
    have step : ∀ row col, rowLights x0 y0 r b (m + 1) row col ↔ rowLights x0 y0 r b m row col
        ∨ (spriteBit b m = true ∧ row = wrapRow y0 r ∧ col = wrapCol x0 m) := by
      intro row col
      constructor
      · rintro ⟨c, hc, h⟩
        rcases Nat.lt_succ_iff_lt_or_eq.mp hc with hlt | rfl
        · exact .inl ⟨c, hlt, h⟩
        · exact .inr h
      · rintro (⟨c, hc, h⟩ | h)
        · exact ⟨c, by omega, h⟩
        · exact ⟨m, by omega, h⟩
    have fresh : ¬ rowLights x0 y0 r b m (wrapRow y0 r) (wrapCol x0 m) := by
      rintro ⟨c, hc, _, _, hcol⟩
      exact absurd (wrapCol_inj (by omega) (by omega) hcol) (by omega)
    by_cases hb : spriteBit b m = true
    · rw [if_pos hb]
      refine ⟨fun row col => ?_, ?_⟩
      · rw [drawBit_pixel, step]
        by_cases hcell : row = wrapRow y0 r ∧ col = wrapCol x0 m
        · obtain ⟨rfl, rfl⟩ := hcell
          simp [hb, (ihp _ _).2 fresh]
        · simp only [hb, true_and, hcell, or_false, if_false]
          exact ihp row col
      · simp only [drawBit, Bool.or_eq_true, ihc, (ihp _ _).2 fresh]
        constructor
        · rintro ((h | ⟨row, col, h, h'⟩) | h)
          · exact .inl h
          · exact .inr ⟨row, col, (step row col).mpr (.inl h), h'⟩
          · exact .inr ⟨_, _, (step _ _).mpr (.inr ⟨hb, rfl, rfl⟩), h⟩
        · rintro (h | ⟨row, col, h, h'⟩)
          · exact .inl (.inl h)
          · rcases (step row col).mp h with h | ⟨_, rfl, rfl⟩
            · exact .inl (.inr ⟨row, col, h, h'⟩)
            · exact .inr h'
    · rw [if_neg hb]
      have same : ∀ row col, rowLights x0 y0 r b (m + 1) row col ↔ rowLights x0 y0 r b m row col := by
        intro row col; rw [step]; simp [hb]
      simp only [same]
      exact ⟨ihp, ihc⟩

/-- The first `n` rows at I light this cell, in the loop's own terms. -/
def spriteLights (s : State) (x0 y0 : Byte) (n : Nat) (row : Fin 32) (col : Fin 64) : Prop :=
  ∃ r < n, rowLights x0 y0 r (s.readMem (dataAddr s.i r)) 8 row col

/-- What the whole loop does: it flips the cells the sprite lights, and reports a collision exactly
when one of those cells was set before. -/
theorem drawSprite_pixel (s : State) (x0 y0 : Byte) (n : Nat) (hn : n ≤ 32) :
    (∀ row col, (spriteLights s x0 y0 n row col →
        (s.drawSprite x0 y0 n).fb.pixel row col = !s.fb.pixel row col)
      ∧ (¬ spriteLights s x0 y0 n row col →
        (s.drawSprite x0 y0 n).fb.pixel row col = s.fb.pixel row col))
    ∧ ((s.drawSprite x0 y0 n).collision = true
        ↔ ∃ row col, spriteLights s x0 y0 n row col ∧ s.fb.pixel row col = true) := by
  induction n with
  | zero => simp [spriteLights, State.drawSprite]
  | succ n ih =>
    obtain ⟨ihp, ihc⟩ := ih (by omega)
    have hs : s.drawSprite x0 y0 (n + 1)
        = drawRow x0 y0 n (s.readMem (dataAddr s.i n)) (s.drawSprite x0 y0 n) := by
      simp [State.drawSprite, List.range_succ]
    obtain ⟨rowp, rowc⟩ := drawRow_columns x0 y0 n (s.readMem (dataAddr s.i n))
      (s.drawSprite x0 y0 n) 8 (le_refl 8)
    rw [hs]
    have step : ∀ row col, spriteLights s x0 y0 (n + 1) row col ↔ spriteLights s x0 y0 n row col
        ∨ rowLights x0 y0 n (s.readMem (dataAddr s.i n)) 8 row col := by
      intro row col
      constructor
      · rintro ⟨r, hr, h⟩
        rcases Nat.lt_succ_iff_lt_or_eq.mp hr with hlt | rfl
        · exact .inl ⟨r, hlt, h⟩
        · exact .inr h
      · rintro (⟨r, hr, h⟩ | h)
        · exact ⟨r, by omega, h⟩
        · exact ⟨n, by omega, h⟩
    have fresh : ∀ row col, rowLights x0 y0 n (s.readMem (dataAddr s.i n)) 8 row col →
        ¬ spriteLights s x0 y0 n row col := by
      rintro row col ⟨c, _, _, hrow, _⟩ ⟨r, hr, c', _, _, hrow', _⟩
      exact absurd (wrapRow_inj (by omega) (by omega) (hrow ▸ hrow')) (by omega)
    refine ⟨fun row col => ?_, ?_⟩
    · rw [step]
      by_cases hrow : rowLights x0 y0 n (s.readMem (dataAddr s.i n)) 8 row col
      · have := (rowp row col).1 hrow
        rw [(ihp row col).2 (fresh row col hrow)] at this
        simp [hrow]; exact this
      · have := (rowp row col).2 hrow
        simp only [hrow, or_false]
        unfold drawRow
        rw [this]
        exact ihp row col
    · unfold drawRow
      rw [rowc, ihc]
      constructor
      · rintro (⟨row, col, h, h'⟩ | ⟨row, col, h, h'⟩)
        · exact ⟨row, col, (step row col).mpr (.inl h), h'⟩
        · rw [(ihp row col).2 (fresh row col h)] at h'
          exact ⟨row, col, (step row col).mpr (.inr h), h'⟩
      · rintro ⟨row, col, h, h'⟩
        by_cases hrow : rowLights x0 y0 n (s.readMem (dataAddr s.i n)) 8 row col
        · refine .inr ⟨row, col, hrow, ?_⟩
          rw [(ihp row col).2 (fresh row col hrow)]; exact h'
        · rcases (step row col).mp h with h | h
          · exact .inl ⟨row, col, h, h'⟩
          · exact absurd h hrow

end Sys2Proof.Machine
end

