-- ==== Sys2Proof/Laws/Memory.lean ====
section
/-! SUPPORT. The laws of memory: read after write, and that every write keeps the canonical form.
They hold for every list, canonical or not, where nothing else is said. -/

namespace Sys2Proof.Machine

variable {dflt : Nat → Byte}

theorem Memory.read_erase_same (m : Memory) (a : Nat) : Memory.read dflt (m.erase a) a = dflt a := by
  induction m with
  | nil => rfl
  | cons c m ih =>
    unfold Memory.erase at ih ⊢
    by_cases h : c.1 = a <;> simp_all [Memory.read]

theorem Memory.read_erase_of_ne (m : Memory) {a a' : Nat} (h : a' ≠ a) :
    Memory.read dflt (m.erase a) a' = Memory.read dflt m a' := by
  induction m with
  | nil => rfl
  | cons c m ih =>
    unfold Memory.erase at ih ⊢
    by_cases hc : c.1 = a
    · have : c.1 ≠ a' := fun e => h (e ▸ hc)
      simp_all [Memory.read]
    · simp_all [Memory.read]

theorem Memory.read_insert_same (m : Memory) (a : Nat) (b : Byte) (h : ∀ c ∈ m, c.1 ≠ a) :
    Memory.read dflt (Memory.insert m a b) a = b := by
  induction m with
  | nil => simp [Memory.insert, Memory.read]
  | cons c m ih =>
    unfold Memory.insert
    split
    · have hc : c.1 ≠ a := h c (by simp)
      simp [Memory.read, hc]
      exact ih (fun d hd => h d (by simp [hd]))
    · simp [Memory.read]

theorem Memory.read_insert_of_ne (m : Memory) {a a' : Nat} (b : Byte) (h : a' ≠ a) :
    Memory.read dflt (Memory.insert m a b) a' = Memory.read dflt m a' := by
  induction m with
  | nil => simp [Memory.insert, Memory.read, Ne.symm h]
  | cons c m ih =>
    unfold Memory.insert
    split
    · simp [Memory.read, ih]
    · simp [Memory.read, Ne.symm h]

theorem Memory.mem_erase {m : Memory} {a : Nat} {c : Host.Cell} :
    c ∈ m.erase a ↔ c ∈ m ∧ c.1 ≠ a := by
  simp [Memory.erase]

/-- Read after write at the same address. -/
theorem Memory.read_write_same (m : Memory) (a : Nat) (b : Byte) :
    Memory.read dflt (Memory.write dflt m a b) a = b := by
  unfold Memory.write
  split
  · next h => rw [Memory.read_erase_same, h]
  · exact Memory.read_insert_same _ _ _ (fun c hc => (Memory.mem_erase.mp hc).2)

/-- A write leaves every other address alone. -/
theorem Memory.read_write_of_ne (m : Memory) {a a' : Nat} (b : Byte) (h : a' ≠ a) :
    Memory.read dflt (Memory.write dflt m a b) a' = Memory.read dflt m a' := by
  unfold Memory.write
  split
  · exact Memory.read_erase_of_ne _ h
  · rw [Memory.read_insert_of_ne _ _ h, Memory.read_erase_of_ne _ h]

theorem Memory.mem_insert {m : Memory} {a : Nat} {b : Byte} {c : Host.Cell} :
    c ∈ Memory.insert m a b ↔ c = (a, b) ∨ c ∈ m := by
  induction m with
  | nil => simp [Memory.insert]
  | cons d m ih =>
    unfold Memory.insert
    split
    · simp [ih]; tauto
    · simp

theorem Memory.insert_sorted {m : Memory} {a : Nat} {b : Byte}
    (hs : m.Pairwise (fun c d => c.1 < d.1)) (hne : ∀ c ∈ m, c.1 ≠ a) :
    (Memory.insert m a b).Pairwise (fun c d => c.1 < d.1) := by
  induction m with
  | nil => simp [Memory.insert]
  | cons c m ih =>
    rw [List.pairwise_cons] at hs
    unfold Memory.insert
    split
    · next hlt =>
      rw [List.pairwise_cons]
      refine ⟨fun d hd => ?_, ih hs.2 (fun d hd => hne d (by simp [hd]))⟩
      rcases Memory.mem_insert.mp hd with rfl | hd
      · exact hlt
      · exact hs.1 d hd
    · next hge =>
      have hc : a < c.1 := by have := hne c (by simp); omega
      refine List.pairwise_cons.mpr ⟨fun d hd => ?_, List.pairwise_cons.mpr hs⟩
      rcases List.mem_cons.mp hd with rfl | hd
      · exact hc
      · exact lt_trans hc (hs.1 d hd)

theorem Memory.wf_nil : Memory.wf dflt [] := by simp [Memory.wf]

/-- Every write inside the address space keeps the canonical form. -/
theorem Memory.wf_write {m : Memory} {a : Nat} {b : Byte} (h : Memory.wf dflt m) (ha : a < 4096) :
    Memory.wf dflt (Memory.write dflt m a b) := by
  have hs : (m.erase a).Pairwise (fun c d => c.1 < d.1) := h.1.filter _
  unfold Memory.write
  split
  · exact ⟨hs, fun c hc => h.2 c (Memory.mem_erase.mp hc).1⟩
  · next hb =>
    refine ⟨Memory.insert_sorted hs (fun c hc => (Memory.mem_erase.mp hc).2), fun c hc => ?_⟩
    rcases Memory.mem_insert.mp hc with rfl | hc
    · exact ⟨ha, hb⟩
    · exact h.2 c (Memory.mem_erase.mp hc).1

/-- In canonical form the bytes determine the list: equal memories are equal data. -/
theorem Memory.ext_of_wf {m m' : Memory} (h : Memory.wf dflt m) (h' : Memory.wf dflt m')
    (e : ∀ a, Memory.read dflt m a = Memory.read dflt m' a) : m = m' := by
  have lt_read : ∀ (l : Memory) (a : Nat), (∀ c ∈ l, a < c.1) → Memory.read dflt l a = dflt a := by
    intro l a hl
    induction l with
    | nil => rfl
    | cons c l ih =>
      have : c.1 ≠ a := by have := hl c (by simp); omega
      simp [Memory.read, this]
      exact ih (fun d hd => hl d (by simp [hd]))
  have head : ∀ (c : Host.Cell) (l : Memory), Memory.read dflt (c :: l) c.1 = c.2 := by
    intro c l; simp [Memory.read]
  induction m generalizing m' with
  | nil =>
    cases m' with
    | nil => rfl
    | cons c l =>
      have := e c.1
      rw [head] at this
      exact absurd this.symm (h'.2 c (by simp)).2
  | cons c l ih =>
    cases m' with
    | nil =>
      have := e c.1
      rw [head] at this
      exact absurd this (h.2 c (by simp)).2
    | cons c' l' =>
      have hl := List.pairwise_cons.mp h.1
      have hl' := List.pairwise_cons.mp h'.1
      have key : c.1 = c'.1 := by
        rcases Nat.lt_trichotomy c.1 c'.1 with hlt | heq | hgt
        · have := e c.1
          rw [head, lt_read (c' :: l') c.1 (by
            intro d hd
            rcases List.mem_cons.mp hd with rfl | hd
            · exact hlt
            · exact lt_trans hlt (hl'.1 d hd))] at this
          exact absurd this (h.2 c (by simp)).2
        · exact heq
        · have := e c'.1
          rw [head, lt_read (c :: l) c'.1 (by
            intro d hd
            rcases List.mem_cons.mp hd with rfl | hd
            · exact hgt
            · exact lt_trans hgt (hl.1 d hd))] at this
          exact absurd this.symm (h'.2 c' (by simp)).2
      have val : c.2 = c'.2 := by
        have := e c.1
        rw [head, key, head] at this
        exact this
      have hc : c = c' := Prod.ext key val
      subst hc
      congr 1
      refine ih ⟨hl.2, fun d hd => h.2 d (by simp [hd])⟩ ⟨hl'.2, fun d hd => h'.2 d (by simp [hd])⟩ ?_
      intro a
      by_cases ha : c.1 = a
      · subst ha
        rw [lt_read l _ hl.1, lt_read l' _ hl'.1]
      · have := e a
        simpa [Memory.read, ha] using this

/-! ### The same, of the state's memory -/

variable (s : State)

@[simp] theorem readMem_writeMem_same (a : Addr) (b : Byte) : (s.writeMem a b).readMem a = b :=
  Memory.read_write_same _ _ _

theorem readMem_writeMem_of_ne {a a' : Addr} (b : Byte) (h : a' ≠ a) :
    (s.writeMem a b).readMem a' = s.readMem a' :=
  Memory.read_write_of_ne _ _ (fun e => h (BitVec.eq_of_toNat_eq e))

theorem readMem_writeMem (a a' : Addr) (b : Byte) :
    (s.writeMem a b).readMem a' = if a' = a then b else s.readMem a' := by
  by_cases h : a' = a
  · subst h; simp
  · simp [h, readMem_writeMem_of_ne]

/-- Every store keeps the canonical form of memory. -/
theorem writeMem_keeps_wf (a : Addr) (b : Byte) (h : Memory.wf (resetByte s.cfg) s.mem) :
    Memory.wf (resetByte (s.writeMem a b).cfg) (s.writeMem a b).mem :=
  Memory.wf_write h a.isLt

/-- Data addresses within 4096 of each other are distinct (20_memory.md R46). -/
theorem dataAddr_inj {i : Word} {k k' : Nat} (h : k < 4096) (h' : k' < 4096)
    (e : dataAddr i k = dataAddr i k') : k = k' := by
  have e' := congrArg BitVec.toNat e
  simp only [dataAddr, mask12, BitVec.toNat_setWidth, BitVec.toNat_add, BitVec.toNat_ofNat] at e'
  omega

/-- `mask12` as R9 writes it: AND with 0xFFF. -/
theorem zextAddr_mask12 (a : Word) : zextAddr (mask12 a) = a &&& 0xFFF := by
  apply BitVec.eq_of_toNat_eq
  simp only [zextAddr, mask12, BitVec.toNat_setWidth, BitVec.toNat_and]
  rw [show BitVec.toNat (4095 : Word) = 2 ^ 12 - 1 from rfl, Nat.and_two_pow_sub_one_eq_mod]
  omega

end Sys2Proof.Machine
end

