-- ==== Sys2Proof/Laws/Transfer.lean ====
section
/-! SUPPORT. What the loops of Fx55, Fx65 and load_program do (43_index_memory.md R115, R116,
70_reset_and_hazards.md R152), each said once. -/

namespace Sys2Proof.Machine

variable (s : State)

theorem storeRegs_zero : s.storeRegs 0 = s := rfl

theorem storeRegs_succ (n : Nat) :
    s.storeRegs (n + 1) = (s.storeRegs n).writeMem (dataAddr s.i n) (s.readV (Fin.ofNat 16 n)) := by
  simp [State.storeRegs, List.range_succ]

theorem loadRegs_zero : s.loadRegs 0 = s := rfl

theorem loadRegs_succ (n : Nat) :
    s.loadRegs (n + 1) = (s.loadRegs n).writeV (Fin.ofNat 16 n) (s.readMem (dataAddr s.i n)) := by
  simp [State.loadRegs, List.range_succ]

/-- Storing registers changes memory alone. -/
theorem storeRegs_eq (n : Nat) : s.storeRegs n = { s with mem := (s.storeRegs n).mem } := by
  induction n with
  | zero => rfl
  | succ n ih => rw [storeRegs_succ, ih]; rfl

/-- Loading registers changes the V registers alone. -/
theorem loadRegs_eq (n : Nat) : s.loadRegs n = { s with v := (s.loadRegs n).v } := by
  induction n with
  | zero => rfl
  | succ n ih => rw [loadRegs_succ, ih]; rfl

/-- The bytes stored: V[k] at mask12(I + k). -/
theorem storeRegs_readMem_same {n k : Nat} (hn : n ≤ 16) (hk : k < n) :
    (s.storeRegs n).readMem (dataAddr s.i k) = s.readV (Fin.ofNat 16 k) := by
  induction n with
  | zero => omega
  | succ n ih =>
    rw [storeRegs_succ, readMem_writeMem]
    split
    · next h => rw [dataAddr_inj (by omega) (by omega) h]
    · next h =>
      have : k ≠ n := fun e => h (by rw [e])
      exact ih (by omega) (by omega)

/-- Every other byte of memory is unchanged. -/
theorem storeRegs_readMem_of_ne {n : Nat} {a : Addr} (h : ∀ k < n, a ≠ dataAddr s.i k) :
    (s.storeRegs n).readMem a = s.readMem a := by
  induction n with
  | zero => rfl
  | succ n ih =>
    rw [storeRegs_succ, readMem_writeMem_of_ne _ _ (h n (by omega))]
    exact ih (fun k hk => h k (by omega))

/-- The registers loaded, and those left alone. -/
theorem loadRegs_readV {n : Nat} (hn : n ≤ 16) (x : RegIdx) :
    (s.loadRegs n).readV x
      = if x.val < n then s.readMem (dataAddr s.i x.val) else s.readV x := by
  induction n with
  | zero => simp [loadRegs_zero]
  | succ n ih =>
    rw [loadRegs_succ, readV_writeV, ih (by omega)]
    have hv : (Fin.ofNat 16 n).val = n := Nat.mod_eq_of_lt (by omega)
    by_cases h : x = Fin.ofNat 16 n
    · have : x.val = n := by rw [h]; exact hv
      rw [if_pos h, if_pos (by omega), this]
    · have : x.val ≠ n := fun e => h (Fin.ext (by rw [hv]; exact e))
      rw [if_neg h]
      by_cases h2 : x.val < n
      · rw [if_pos h2, if_pos (by omega)]
      · rw [if_neg h2, if_neg (by omega)]

/-- Storing registers keeps the canonical form of memory. -/
theorem storeRegs_keeps_wf (n : Nat) (h : Memory.wf (resetByte s.cfg) s.mem) :
    Memory.wf (resetByte s.cfg) (s.storeRegs n).mem := by
  induction n with
  | zero => exact h
  | succ n ih =>
    have hc : (s.storeRegs n).cfg = s.cfg := by rw [storeRegs_eq]
    rw [storeRegs_succ, writeMem_mem, hc]
    exact Memory.wf_write ih (BitVec.isLt _)

/-! ### load_program -/

/-- Writing an image changes memory alone. -/
theorem writeBytes_eq (bs : List Byte) (a : Nat) :
    s.writeBytes a bs = { s with mem := (s.writeBytes a bs).mem } := by
  induction bs generalizing s a with
  | nil => rfl
  | cons b bs ih => simp only [State.writeBytes]; rw [ih]; rfl

/-- An address below the image is unchanged. -/
theorem writeBytes_readMem_below (bs : List Byte) {a : Nat} {c : Addr} (hc : c.toNat < a)
    (ha : a + bs.length ≤ 4096) : (s.writeBytes a bs).readMem c = s.readMem c := by
  induction bs generalizing s a with
  | nil => rfl
  | cons b bs ih =>
    simp only [List.length_cons] at ha
    simp only [State.writeBytes]
    rw [ih _ (by omega) (by omega), readMem_writeMem_of_ne]
    intro e
    have := congrArg BitVec.toNat e
    simp only [BitVec.toNat_ofNat] at this
    omega

/-- An address above the image is unchanged. -/
theorem writeBytes_readMem_above (bs : List Byte) {a : Nat} {c : Addr}
    (hc : a + bs.length ≤ c.toNat) : (s.writeBytes a bs).readMem c = s.readMem c := by
  induction bs generalizing s a with
  | nil => rfl
  | cons b bs ih =>
    simp only [List.length_cons] at hc
    simp only [State.writeBytes]
    rw [ih _ (by omega), readMem_writeMem_of_ne]
    intro e
    have := congrArg BitVec.toNat e
    have := c.isLt
    simp only [BitVec.toNat_ofNat] at *
    omega

/-- Byte `j` of the image is at `a + j`. -/
theorem writeBytes_readMem_image (bs : List Byte) {a : Nat} (ha : a + bs.length ≤ 4096) (j : Nat)
    (hj : j < bs.length) : (s.writeBytes a bs).readMem (BitVec.ofNat 12 (a + j)) = bs[j] := by
  induction bs generalizing s a j with
  | nil => simp at hj
  | cons b bs ih =>
    simp only [List.length_cons] at ha hj
    simp only [State.writeBytes]
    cases j with
    | zero =>
      rw [writeBytes_readMem_below _ _ (by simp only [BitVec.toNat_ofNat]; omega) (by omega)]
      simp
    | succ j =>
      have := ih (s.writeMem (BitVec.ofNat 12 a) b) (a := a + 1) (by omega) j (by omega)
      simpa [Nat.add_assoc, Nat.add_comm 1 j] using this

/-- Writing an image keeps the canonical form of memory. -/
theorem writeBytes_keeps_wf (bs : List Byte) (a : Nat) (h : Memory.wf (resetByte s.cfg) s.mem) :
    Memory.wf (resetByte s.cfg) (s.writeBytes a bs).mem := by
  induction bs generalizing s a with
  | nil => exact h
  | cons b bs ih => exact ih (s.writeMem _ b) (a + 1) (writeMem_keeps_wf s _ b h)

end Sys2Proof.Machine
end

