-- ==== Sys2Proof/Laws/Step.lean ====
section
/-! SUPPORT. What one step can do, said once: the fetch in numbers, the forms of `exec` that every
later proof uses, and the inversion of `step`. -/

namespace Sys2Proof.Machine

variable (s : State)

/-! ### The fetch (40_cycle.md R78–R81) -/

theorem fetchLegal_iff (p : Word) :
    fetchLegal p = true ↔ p.toNat % 2 = 0 ∧ 0x200 ≤ p.toNat ∧ p.toNat ≤ 0xFFE := by
  have h : (p &&& 1).toNat = p.toNat % 2 := by
    rw [BitVec.toNat_and, show (1 : Word).toNat = 2 ^ 1 - 1 from rfl, Nat.and_two_pow_sub_one_eq_mod]
  have h0 : (p &&& 1 == 0) = true ↔ p.toNat % 2 = 0 := by
    rw [beq_iff_eq, ← h]
    exact ⟨fun e => by rw [e]; rfl, fun e => BitVec.eq_of_toNat_eq e⟩
  rw [fetchLegal, Bool.and_eq_true, Bool.and_eq_true, h0, decide_eq_true_iff, decide_eq_true_iff,
    and_assoc]
  rfl

theorem fetchWord_toNat : s.fetchWord.toNat
    = 256 * (s.readMem (mask12 s.pc)).toNat + (s.readMem (mask12 (s.pc + 1))).toNat := by
  rw [State.fetchWord, bytesWord_toNat, Nat.mul_comm]

/-- `Fetches` in the model's own terms. -/
theorem fetches_iff (w : Word) :
    Fetches s w ↔ s.status = .running ∧ fetchLegal s.pc = true ∧ s.fetchWord = w := by
  rw [fetchLegal_iff]
  constructor
  · intro h
    exact ⟨h.running, ⟨h.even, h.low, h.high⟩,
      BitVec.eq_of_toNat_eq (by rw [fetchWord_toNat, h.word])⟩
  · rintro ⟨hr, ⟨he, hl, hh⟩, hw⟩
    exact ⟨hr, he, hl, hh, by rw [← hw, fetchWord_toNat]⟩

theorem afterFetch_of_ne_zero {w : Word} (h : w ≠ 0x0000) :
    s.afterFetch w = s.setPc (s.pc + 2) := if_neg h

theorem afterFetch_zero : s.afterFetch 0x0000 = s := if_pos rfl

/-! ### The step (40_cycle.md R86) -/

theorem step_of_faulted {e : Fault} (h : s.status = .faulted e) : step s = .fault e := by
  simp [step, h]

theorem step_of_waiting {x : RegIdx} (h : s.status = .waiting x) :
    step s = .next (s.stepWaiting x) := by
  simp [step, h]

theorem step_of_fetches {w : Word} (h : Fetches s w) :
    step s = exec (decode w) (s.afterFetch w) := by
  obtain ⟨hr, hl, hw⟩ := (fetches_iff s w).mp h
  simp [step, hr, hl, hw]

theorem step_of_badFetch (h : s.status = .running) (hl : fetchLegal s.pc = false) :
    step s = .next (s.enterFault .fetchOutOfRange) := by
  simp [step, h, hl]

theorem decode_zero : decode 0x0000 = .halt := rfl

/-- Everything a step that answers a next state can have done. -/
theorem step_cases {t : State} (h : step s = .next t) :
    (∃ x, s.status = .waiting x ∧ t = s.stepWaiting x)
    ∨ (s.status = .running ∧ fetchLegal s.pc = false ∧ t = s.enterFault .fetchOutOfRange)
    ∨ (Fetches s 0x0000 ∧ t = s)
    ∨ (∃ w, Fetches s w ∧ w ≠ 0x0000 ∧ exec (decode w) (s.setPc (s.pc + 2)) = .next t) := by
  match hs : s.status with
  | .faulted e => rw [step_of_faulted s hs] at h; cases h
  | .waiting x =>
    rw [step_of_waiting s hs] at h
    cases h
    exact .inl ⟨x, rfl, rfl⟩
  | .running =>
    by_cases hl : fetchLegal s.pc = true
    · have hf : Fetches s s.fetchWord := (fetches_iff s _).mpr ⟨hs, hl, rfl⟩
      rw [step_of_fetches s hf] at h
      by_cases hw : s.fetchWord = 0x0000
      · rw [hw] at hf h
        rw [decode_zero, afterFetch_zero] at h
        cases h
        exact .inr (.inr (.inl ⟨hf, rfl⟩))
      · rw [afterFetch_of_ne_zero s hw] at h
        exact .inr (.inr (.inr ⟨_, hf, hw, h⟩))
    · have hl' : fetchLegal s.pc = false := by simpa using hl
      rw [step_of_badFetch s hs hl'] at h
      cases h
      exact .inr (.inl ⟨rfl, hl', rfl⟩)

/-- The outcome of a step that fetches `w`, by what that step does. -/
theorem report_of_fetches {w : Word} (h : Fetches s w) :
    s.report = (match step s with
      | .next t =>
        match t.status with
        | .faulted e => some (.fatal e)
        | .running => some (reportOf (decode w))
        | .waiting _ => some (reportOf (decode w))
      | .fault e => some (.fatal e)
      | .refused _ => none) := by
  obtain ⟨hr, hl, hw⟩ := (fetches_iff s w).mp h
  subst hw
  unfold State.report
  rw [hr]
  exact if_pos hl

/-- A core that steps to itself runs to itself. -/
theorem core_run_of_fixed {M : Host.Core} {s : M.State} (h : M.step s = .next s) (k : Nat) :
    M.run k s = .next s := by
  induction k with
  | zero => rfl
  | succ k ih => simp [Host.Core.run, h, ih]

/-! ### Meanings with two ends -/

/-- CALL, said once: it pushes, or it overflows. -/
theorem execCall_cases (nnn : Addr) :
    (∃ j : Fin 16, s.sp.val = j.val ∧ ∃ t, s.push s.pc = some t
      ∧ exec (.call nnn) s = .next (t.setPc (zextAddr nnn)))
    ∨ (s.sp.val = 16 ∧ exec (.call nnn) s = .next (s.raiseFatal .stackOverflow)) := by
  by_cases h : s.sp.val = 16
  · exact .inr ⟨h, by simp [exec, execCall, push_of_full s _ h]⟩
  · have hlt : s.sp.val < 16 := by omega
    obtain ⟨t, ht, _⟩ := push_of_room s s.pc ⟨s.sp.val, hlt⟩ rfl
    exact .inl ⟨⟨s.sp.val, hlt⟩, rfl, t, ht, by simp [exec, execCall, ht]⟩

/-- RET, said once: it pops, or it underflows. -/
theorem execRet_cases :
    (∃ j : Fin 16, s.sp.val = j.val + 1 ∧ ∃ t, s.pop = some (s.stackAt j, t)
      ∧ exec .ret s = .next (t.setPc (s.stackAt j)))
    ∨ (s.sp.val = 0 ∧ exec .ret s = .next (s.raiseFatal .stackUnderflow)) := by
  by_cases h : s.sp.val = 0
  · exact .inr ⟨h, by simp [exec, execRet, pop_of_empty s h]⟩
  · have hlt : s.sp.val - 1 < 16 := by omega
    obtain ⟨t, ht, _⟩ := pop_of_live s ⟨s.sp.val - 1, hlt⟩ (by simp; omega)
    exact .inl ⟨⟨s.sp.val - 1, hlt⟩, by simp; omega, t, ht, by simp [exec, execRet, ht]⟩

/-- SKP and SKNP, said once: they skip on a key, or V[x] names none. -/
theorem execSkp_cases (x : RegIdx) :
    (∃ k : KeyIdx, (s.readV x).toNat = k.val
      ∧ exec (.skp x) s = .next (s.skipIf (s.keyAt k))
      ∧ exec (.sknp x) s = .next (s.skipIf (!s.keyAt k)))
    ∨ (15 < (s.readV x).toNat
      ∧ exec (.skp x) s = .next (s.raiseFatal .keyIndexOutOfRange)
      ∧ exec (.sknp x) s = .next (s.raiseFatal .keyIndexOutOfRange)) := by
  by_cases h : (s.readV x).toNat < 16
  · have hk : keyNumber (s.readV x) = some ⟨_, h⟩ := keyNumber_of_eq rfl
    exact .inl ⟨⟨_, h⟩, rfl, by simp [exec, execSkp, hk], by simp [exec, execSknp, hk]⟩
  · have hk := keyNumber_of_large (v := s.readV x) (by omega)
    exact .inr ⟨by omega, by simp [exec, execSkp, hk], by simp [exec, execSknp, hk]⟩

end Sys2Proof.Machine
end

