-- ==== Sys2Proof/Laws/Frames.lean ====
section
/-! SUPPORT. The frame of each shared operation in the words of Safety.lean: what it leaves unchanged,
said once. -/

namespace Sys2Proof.Machine

variable (s : State)

/-- Writing one register changes that register alone. -/
theorem writeV_frame (x : RegIdx) (b : Byte) :
    SameV [x] s (s.writeV x b) ∧ (s.writeV x b).i = s.i ∧ (s.writeV x b).pc = s.pc
      ∧ SameMem [] s (s.writeV x b) ∧ SameStack s (s.writeV x b) ∧ SameFb s (s.writeV x b)
      ∧ SameRest s (s.writeV x b) :=
  ⟨fun _ h => readV_writeV_of_ne s b (by simpa using h), rfl, rfl, fun _ _ => rfl,
    ⟨rfl, fun _ => rfl⟩, fun _ _ => rfl,
    ⟨fun _ => rfl, rfl, rfl, rfl, rfl, rfl, rfl⟩⟩

/-- Writing a result and its flag changes that register and VF alone. -/
theorem writeVFlag_frame (x : RegIdx) (b f : Byte) :
    SameV [x, 15] s (s.writeVFlag x b f) ∧ (s.writeVFlag x b f).i = s.i
      ∧ (s.writeVFlag x b f).pc = s.pc ∧ SameMem [] s (s.writeVFlag x b f)
      ∧ SameStack s (s.writeVFlag x b f) ∧ SameFb s (s.writeVFlag x b f)
      ∧ SameRest s (s.writeVFlag x b f) :=
  ⟨fun _ h => writeVFlag_readV_of_ne s b f (by simp at h; exact h.1) (by simp at h; exact h.2),
    rfl, rfl, fun _ _ => rfl, ⟨rfl, fun _ => rfl⟩, fun _ _ => rfl,
    ⟨fun _ => rfl, rfl, rfl, rfl, rfl, rfl, rfl⟩⟩

/-- A skip on `p` moves pc alone. -/
theorem skipIf_eq {c : Bool} {p : Prop} [Decidable p] (h : c = true ↔ p) :
    s.skipIf c = { s with pc := if p then s.pc + 2 else s.pc } := by
  cases c <;> simp_all [State.skipIf, State.setPc]

/-- A skip unless `p` moves pc alone. -/
theorem skipIf_eq_unless {c : Bool} {p : Prop} [Decidable p] (h : c = true ↔ ¬ p) :
    s.skipIf c = { s with pc := if p then s.pc else s.pc + 2 } := by
  cases c <;> simp_all [State.skipIf, State.setPc]

/-- The step of a waiting core writes registers, the status and the latch alone. -/
theorem stepWaiting_eq (x : RegIdx) :
    s.stepWaiting x = { s with
      v := (s.stepWaiting x).v
      status := (s.stepWaiting x).status
      latchedKey := (s.stepWaiting x).latchedKey } := by
  cases hl : s.latchedKey <;> cases s <;>
    simp_all [State.stepWaiting, State.writeV, State.setLatch, State.setStatus]

/-- When a key event latches (45_timers_keys.md R124). -/
theorem latches_iff (k : KeyIdx) (p : Bool) :
    s.latches k p = true ↔ (∃ x, s.status = .waiting x) ∧ s.latchedKey = none ∧ p = true
      ∧ s.keyAt k = false := by
  unfold State.latches
  cases hs : s.status <;> simp [and_assoc]

/-- What a move of the host can change (60_exceptions.md R145): the timers, the keypad, the latch, and
memory, which only `load_program` does. -/
theorem act_host_eq {a : Action} (h : a ≠ .step) :
    s.act a = { s with
      dt := (s.act a).dt
      st := (s.act a).st
      mem := (s.act a).mem
      key := (s.act a).key
      latchedKey := (s.act a).latchedKey }
    ∧ ((∀ bytes, a ≠ .loadProgram bytes) → (s.act a).mem = s.mem) := by
  cases a with
  | step => exact absurd rfl h
  | tickTimers => exact ⟨rfl, fun _ => rfl⟩
  | setKey k p =>
    simp only [State.act, State.setKey]
    split <;> exact ⟨rfl, fun _ => rfl⟩
  | loadProgram bytes =>
    refine ⟨?_, fun hb => absurd rfl (hb bytes)⟩
    by_cases hl : bytes.length > maxProgram
    · simp [State.act, State.loadProgram, hl]
    · simp only [State.act, State.loadProgram, if_neg hl]
      rw [writeBytes_eq]
  | framebuffer => exact ⟨rfl, fun _ => rfl⟩
  | soundActive => exact ⟨rfl, fun _ => rfl⟩

/-- No move of the host replaces a key that is latched (R142: the first press wins). -/
theorem act_host_keeps_latch {a : Action} (h : a ≠ .step) {k : KeyIdx}
    (hl : s.latchedKey = some k) : (s.act a).latchedKey = some k := by
  cases a with
  | step => exact absurd rfl h
  | setKey j p =>
    have hn : s.latches j p = false := by simp [State.latches, hl]
    simp only [State.act, State.setKey, hn]
    exact hl
  | loadProgram bytes =>
    by_cases hb : bytes.length > maxProgram
    · simpa [State.act, State.loadProgram, hb] using hl
    · simp only [State.act, State.loadProgram, if_neg hb]
      rw [writeBytes_eq]
      exact hl
  | _ => exact hl

end Sys2Proof.Machine
end

