-- ==== Sys2Proof/Laws/PerInstr.lean ====
section
/-! SUPPORT. What is said of every instruction, one lemma for each constructor. Family RowPattern: the
encoder's word fits the mask and match value that spec/opcode_table.json gives the instruction. -/

namespace Sys2Proof.Laws

/-- The mask and match value of the instruction's row in spec/opcode_table.json; an unknown word has
no row of its own. -/
def patternOf : Instr → Option (Word × Word)
  | .halt => some (0xFFFF, 0x0000)
  | .cls => some (0xFFFF, 0x00E0)
  | .ret => some (0xFFFF, 0x00EE)
  | .jp _ => some (0xF000, 0x1000)
  | .call _ => some (0xF000, 0x2000)
  | .seImm _ _ => some (0xF000, 0x3000)
  | .sneImm _ _ => some (0xF000, 0x4000)
  | .seReg _ _ => some (0xF00F, 0x5000)
  | .ldImm _ _ => some (0xF000, 0x6000)
  | .addImm _ _ => some (0xF000, 0x7000)
  | .ldReg _ _ => some (0xF00F, 0x8000)
  | .orReg _ _ => some (0xF00F, 0x8001)
  | .andReg _ _ => some (0xF00F, 0x8002)
  | .xorReg _ _ => some (0xF00F, 0x8003)
  | .addReg _ _ => some (0xF00F, 0x8004)
  | .subReg _ _ => some (0xF00F, 0x8005)
  | .shr _ _ => some (0xF00F, 0x8006)
  | .subn _ _ => some (0xF00F, 0x8007)
  | .shl _ _ => some (0xF00F, 0x800E)
  | .sneReg _ _ => some (0xF00F, 0x9000)
  | .ldI _ => some (0xF000, 0xA000)
  | .jpV0 _ => some (0xF000, 0xB000)
  | .rnd _ _ => some (0xF000, 0xC000)
  | .drw _ _ _ => some (0xF000, 0xD000)
  | .skp _ => some (0xF0FF, 0xE09E)
  | .sknp _ => some (0xF0FF, 0xE0A1)
  | .ldVxDt _ => some (0xF0FF, 0xF007)
  | .ldVxK _ => some (0xF0FF, 0xF00A)
  | .ldDtVx _ => some (0xF0FF, 0xF015)
  | .ldStVx _ => some (0xF0FF, 0xF018)
  | .addIVx _ => some (0xF0FF, 0xF01E)
  | .ldFVx _ => some (0xF0FF, 0xF029)
  | .ldBVx _ => some (0xF0FF, 0xF033)
  | .ldMemVx _ => some (0xF0FF, 0xF055)
  | .ldVxMem _ => some (0xF0FF, 0xF065)
  | .unknown _ => none

/-- The word that `encode` gives fits the instruction's row (30_encoding.md R63). -/
def RowPattern.Statement (i : Instr) : Prop :=
  ∀ m b, patternOf i = some (m, b) → encode i &&& m = b

/-- One row, once its mask and match value are known. -/
theorem rowPattern_of_eq {i : Instr} {m b : Word} (hp : patternOf i = some (m, b))
    (h : encode i &&& m = b) : RowPattern.Statement i := by
  intro m' b' e
  obtain ⟨rfl, rfl⟩ := Prod.mk.inj (Option.some.inj (hp.symm.trans e))
  exact h

theorem RowPattern.halt : RowPattern.Statement .halt :=
  rowPattern_of_eq rfl rfl

theorem RowPattern.cls : RowPattern.Statement .cls :=
  rowPattern_of_eq rfl rfl

theorem RowPattern.ret : RowPattern.Statement .ret :=
  rowPattern_of_eq rfl rfl

theorem RowPattern.jp (nnn : Addr) : RowPattern.Statement (.jp nnn) :=
  rowPattern_of_eq rfl (by
    simp only [encode, BitVec.and_or_distrib_right, placeNNN_and nnn]
    rfl)

theorem RowPattern.call (nnn : Addr) : RowPattern.Statement (.call nnn) :=
  rowPattern_of_eq rfl (by
    simp only [encode, BitVec.and_or_distrib_right, placeNNN_and nnn]
    rfl)

theorem RowPattern.seImm (x : RegIdx) (kk : Byte) : RowPattern.Statement (.seImm x kk) :=
  rowPattern_of_eq rfl (by
    simp only [encode, BitVec.and_or_distrib_right, (placeX_and x).1, placeKK_and kk]
    rfl)

theorem RowPattern.sneImm (x : RegIdx) (kk : Byte) : RowPattern.Statement (.sneImm x kk) :=
  rowPattern_of_eq rfl (by
    simp only [encode, BitVec.and_or_distrib_right, (placeX_and x).1, placeKK_and kk]
    rfl)

theorem RowPattern.seReg (x : RegIdx) (y : RegIdx) : RowPattern.Statement (.seReg x y) :=
  rowPattern_of_eq rfl (by
    simp only [encode, BitVec.and_or_distrib_right, (placeX_and x).2.1, (placeY_and y).2]
    rfl)

theorem RowPattern.ldImm (x : RegIdx) (kk : Byte) : RowPattern.Statement (.ldImm x kk) :=
  rowPattern_of_eq rfl (by
    simp only [encode, BitVec.and_or_distrib_right, (placeX_and x).1, placeKK_and kk]
    rfl)

theorem RowPattern.addImm (x : RegIdx) (kk : Byte) : RowPattern.Statement (.addImm x kk) :=
  rowPattern_of_eq rfl (by
    simp only [encode, BitVec.and_or_distrib_right, (placeX_and x).1, placeKK_and kk]
    rfl)

theorem RowPattern.ldReg (x : RegIdx) (y : RegIdx) : RowPattern.Statement (.ldReg x y) :=
  rowPattern_of_eq rfl (by
    simp only [encode, BitVec.and_or_distrib_right, (placeX_and x).2.1, (placeY_and y).2]
    rfl)

theorem RowPattern.orReg (x : RegIdx) (y : RegIdx) : RowPattern.Statement (.orReg x y) :=
  rowPattern_of_eq rfl (by
    simp only [encode, BitVec.and_or_distrib_right, (placeX_and x).2.1, (placeY_and y).2]
    rfl)

theorem RowPattern.andReg (x : RegIdx) (y : RegIdx) : RowPattern.Statement (.andReg x y) :=
  rowPattern_of_eq rfl (by
    simp only [encode, BitVec.and_or_distrib_right, (placeX_and x).2.1, (placeY_and y).2]
    rfl)

theorem RowPattern.xorReg (x : RegIdx) (y : RegIdx) : RowPattern.Statement (.xorReg x y) :=
  rowPattern_of_eq rfl (by
    simp only [encode, BitVec.and_or_distrib_right, (placeX_and x).2.1, (placeY_and y).2]
    rfl)

theorem RowPattern.addReg (x : RegIdx) (y : RegIdx) : RowPattern.Statement (.addReg x y) :=
  rowPattern_of_eq rfl (by
    simp only [encode, BitVec.and_or_distrib_right, (placeX_and x).2.1, (placeY_and y).2]
    rfl)

theorem RowPattern.subReg (x : RegIdx) (y : RegIdx) : RowPattern.Statement (.subReg x y) :=
  rowPattern_of_eq rfl (by
    simp only [encode, BitVec.and_or_distrib_right, (placeX_and x).2.1, (placeY_and y).2]
    rfl)

theorem RowPattern.shr (x : RegIdx) (y : RegIdx) : RowPattern.Statement (.shr x y) :=
  rowPattern_of_eq rfl (by
    simp only [encode, BitVec.and_or_distrib_right, (placeX_and x).2.1, (placeY_and y).2]
    rfl)

theorem RowPattern.subn (x : RegIdx) (y : RegIdx) : RowPattern.Statement (.subn x y) :=
  rowPattern_of_eq rfl (by
    simp only [encode, BitVec.and_or_distrib_right, (placeX_and x).2.1, (placeY_and y).2]
    rfl)

theorem RowPattern.shl (x : RegIdx) (y : RegIdx) : RowPattern.Statement (.shl x y) :=
  rowPattern_of_eq rfl (by
    simp only [encode, BitVec.and_or_distrib_right, (placeX_and x).2.1, (placeY_and y).2]
    rfl)

theorem RowPattern.sneReg (x : RegIdx) (y : RegIdx) : RowPattern.Statement (.sneReg x y) :=
  rowPattern_of_eq rfl (by
    simp only [encode, BitVec.and_or_distrib_right, (placeX_and x).2.1, (placeY_and y).2]
    rfl)

theorem RowPattern.ldI (nnn : Addr) : RowPattern.Statement (.ldI nnn) :=
  rowPattern_of_eq rfl (by
    simp only [encode, BitVec.and_or_distrib_right, placeNNN_and nnn]
    rfl)

theorem RowPattern.jpV0 (nnn : Addr) : RowPattern.Statement (.jpV0 nnn) :=
  rowPattern_of_eq rfl (by
    simp only [encode, BitVec.and_or_distrib_right, placeNNN_and nnn]
    rfl)

theorem RowPattern.rnd (x : RegIdx) (kk : Byte) : RowPattern.Statement (.rnd x kk) :=
  rowPattern_of_eq rfl (by
    simp only [encode, BitVec.and_or_distrib_right, (placeX_and x).1, placeKK_and kk]
    rfl)

theorem RowPattern.drw (x : RegIdx) (y : RegIdx) (n : Fin 16) : RowPattern.Statement (.drw x y n) :=
  rowPattern_of_eq rfl (by
    simp only [encode, BitVec.and_or_distrib_right, (placeX_and x).1, (placeY_and y).1, placeN_and n]
    rfl)

theorem RowPattern.skp (x : RegIdx) : RowPattern.Statement (.skp x) :=
  rowPattern_of_eq rfl (by
    simp only [encode, BitVec.and_or_distrib_right, (placeX_and x).2.2]
    rfl)

theorem RowPattern.sknp (x : RegIdx) : RowPattern.Statement (.sknp x) :=
  rowPattern_of_eq rfl (by
    simp only [encode, BitVec.and_or_distrib_right, (placeX_and x).2.2]
    rfl)

theorem RowPattern.ldVxDt (x : RegIdx) : RowPattern.Statement (.ldVxDt x) :=
  rowPattern_of_eq rfl (by
    simp only [encode, BitVec.and_or_distrib_right, (placeX_and x).2.2]
    rfl)

theorem RowPattern.ldVxK (x : RegIdx) : RowPattern.Statement (.ldVxK x) :=
  rowPattern_of_eq rfl (by
    simp only [encode, BitVec.and_or_distrib_right, (placeX_and x).2.2]
    rfl)

theorem RowPattern.ldDtVx (x : RegIdx) : RowPattern.Statement (.ldDtVx x) :=
  rowPattern_of_eq rfl (by
    simp only [encode, BitVec.and_or_distrib_right, (placeX_and x).2.2]
    rfl)

theorem RowPattern.ldStVx (x : RegIdx) : RowPattern.Statement (.ldStVx x) :=
  rowPattern_of_eq rfl (by
    simp only [encode, BitVec.and_or_distrib_right, (placeX_and x).2.2]
    rfl)

theorem RowPattern.addIVx (x : RegIdx) : RowPattern.Statement (.addIVx x) :=
  rowPattern_of_eq rfl (by
    simp only [encode, BitVec.and_or_distrib_right, (placeX_and x).2.2]
    rfl)

theorem RowPattern.ldFVx (x : RegIdx) : RowPattern.Statement (.ldFVx x) :=
  rowPattern_of_eq rfl (by
    simp only [encode, BitVec.and_or_distrib_right, (placeX_and x).2.2]
    rfl)

theorem RowPattern.ldBVx (x : RegIdx) : RowPattern.Statement (.ldBVx x) :=
  rowPattern_of_eq rfl (by
    simp only [encode, BitVec.and_or_distrib_right, (placeX_and x).2.2]
    rfl)

theorem RowPattern.ldMemVx (x : RegIdx) : RowPattern.Statement (.ldMemVx x) :=
  rowPattern_of_eq rfl (by
    simp only [encode, BitVec.and_or_distrib_right, (placeX_and x).2.2]
    rfl)

theorem RowPattern.ldVxMem (x : RegIdx) : RowPattern.Statement (.ldVxMem x) :=
  rowPattern_of_eq rfl (by
    simp only [encode, BitVec.and_or_distrib_right, (placeX_and x).2.2]
    rfl)

theorem RowPattern.unknown (w : Word) : RowPattern.Statement (.unknown w) := by
  intro m b e
  cases e

end Sys2Proof.Laws
end

