-- ==== Sys2Proof/Tests/Slice0.lean ====
section
/-! SUPPORT. The model's own tests. The words and the expected values are those of spec/95_test_vectors.md
(its ids stand in the comments) or worked out by hand from the rule named; and, for every statement of
Obligations.lean that has hypotheses, a witness that meets them. -/

namespace Sys2Proof.Tests

open Sys2Proof Sys2Proof.Machine

/-! ### Helpers -/

/-- The initialized machine with the word `w` at 0x200. -/
def start (w : Nat) : State := State.reset.withFetchWord 16 w

/-- What `f` sees after one step, if the step answers a next state. -/
def after {α : Type} (s : State) (f : State → α) : Option α :=
  match step s with
  | .next t => some (f t)
  | .fault _ => none
  | .refused _ => none

/-- A register given a value before the step. -/
def withV (x : RegIdx) (b : Byte) (s : State) : State := s.writeV x b

/-- A key held down before the step. -/
def withKey (k : KeyIdx) (s : State) : State := s.setKeyAt k true

/-- I and one byte of memory given before the step. -/
def withI (a : Word) (s : State) : State := s.setI a
def withByte (a : Addr) (b : Byte) (s : State) : State := s.writeMem a b

/-- V0 and VF. -/
def v0f (t : State) : Byte × Byte := (t.readV 0, t.readV 15)

/-! ### Decoding: a word written out from R63's pattern for every constructor (Table W1) -/

theorem test_decode_flow : decode 0x0000 = .halt ∧ decode 0x00E0 = .cls ∧ decode 0x00EE = .ret
    ∧ decode 0x1ABC = .jp 0xABC ∧ decode 0x2ABC = .call 0xABC ∧ decode 0x3A12 = .seImm 0xA 0x12
    ∧ decode 0x4A12 = .sneImm 0xA 0x12 ∧ decode 0x5120 = .seReg 1 2 ∧ decode 0x9120 = .sneReg 1 2
    ∧ decode 0xB123 = .jpV0 0x123 := by decide

theorem test_decode_alu : decode 0x6A12 = .ldImm 0xA 0x12 ∧ decode 0x7A12 = .addImm 0xA 0x12
    ∧ decode 0x8AB0 = .ldReg 0xA 0xB ∧ decode 0x8AB1 = .orReg 0xA 0xB
    ∧ decode 0x8AB2 = .andReg 0xA 0xB ∧ decode 0x8AB3 = .xorReg 0xA 0xB
    ∧ decode 0x8AB4 = .addReg 0xA 0xB ∧ decode 0x8AB5 = .subReg 0xA 0xB
    ∧ decode 0x8AB6 = .shr 0xA 0xB ∧ decode 0x8AB7 = .subn 0xA 0xB
    ∧ decode 0x8ABE = .shl 0xA 0xB ∧ decode 0xC1FF = .rnd 1 0xFF := by decide

theorem test_decode_misc : decode 0xA123 = .ldI 0x123 ∧ decode 0xD125 = .drw 1 2 5
    ∧ decode 0xE19E = .skp 1 ∧ decode 0xE1A1 = .sknp 1 ∧ decode 0xF107 = .ldVxDt 1
    ∧ decode 0xF10A = .ldVxK 1 ∧ decode 0xF115 = .ldDtVx 1 ∧ decode 0xF118 = .ldStVx 1
    ∧ decode 0xF11E = .addIVx 1 ∧ decode 0xF129 = .ldFVx 1 ∧ decode 0xF133 = .ldBVx 1
    ∧ decode 0xF155 = .ldMemVx 1 ∧ decode 0xF165 = .ldVxMem 1 := by decide

/-- Unknown words of Table W1 and V3. -/
theorem test_decode_unknown : decode 0x0123 = .unknown 0x0123 ∧ decode 0x5121 = .unknown 0x5121
    ∧ decode 0x800F = .unknown 0x800F ∧ decode 0x9001 = .unknown 0x9001
    ∧ decode 0xE09F = .unknown 0xE09F ∧ decode 0xF0FF = .unknown 0xF0FF
    ∧ decode 0x00FF = .unknown 0x00FF := by decide

/-- The encoder on the words of Table W1. -/
theorem test_encode : encode (.jp 0xABC) = 0x1ABC ∧ encode (.seImm 0xA 0x12) = 0x3A12
    ∧ encode (.subn 0xA 0xB) = 0x8AB7 ∧ encode (.drw 1 2 5) = 0xD125 ∧ encode (.sknp 1) = 0xE1A1
    ∧ encodeBytes (.ldI 0x123) = [0xA1, 0x23] := by decide

/-- The interface's reading of a word: bits numbered as the table numbers them, one word a row. -/
theorem test_decodeTableWord : decodeTableWord 16 0xD125 = some (.drw 1 2 5)
    ∧ decodeTableWord 16 0x0000 = some .halt ∧ decodeTableWord 16 0x5121 = some (.unknown 0x5121)
    ∧ decodeTableWord 32 0x12345678 = none := by decide

/-! ### WellFormed: an ill-formed term for its one check -/

/-- A word that is not in the unknown space is no well-formed unknown instruction: the halt word, an
instruction's word, a word of a class with no unknown words. -/
theorem test_wellFormed_refuses : (Instr.unknown 0x0000).wellFormed = false
    ∧ (Instr.unknown 0x00E0).wellFormed = false ∧ (Instr.unknown 0x5120).wellFormed = false
    ∧ (Instr.unknown 0x8AB7).wellFormed = false ∧ (Instr.unknown 0xE09E).wellFormed = false
    ∧ (Instr.unknown 0xF065).wellFormed = false ∧ (Instr.unknown 0x6005).wellFormed = false := by
  decide

theorem test_wellFormed_accepts : (Instr.unknown 0x5121).wellFormed = true
    ∧ (Instr.unknown 0x0123).wellFormed = true ∧ (Instr.drw 15 15 15).wellFormed = true := by decide

/-! ### Cycle, halt, unknown words, fatal errors -/

/-- V1 -/
theorem test_halt : after (start 0x0000) id = some (start 0x0000)
    ∧ (start 0x0000).report = some .halted := by decide

/-- V2 -/
theorem test_unknown : after (start 0x0123) id = some ((start 0x0123).setPc 0x202)
    ∧ (start 0x0123).report = some (.unknown 0x0123) := by decide

/-- V4, V5 -/
theorem test_fetch_bounds :
    after (State.reset.setPc 0x201) (fun t => (t.status, t.pc))
      = some (.faulted .fetchOutOfRange, 0x201)
    ∧ after (State.reset.setPc 0x1FE) (·.status) = some (.faulted .fetchOutOfRange) := by decide

/-- V6: the last legal fetch, and the step after it. -/
theorem test_fetch_last :
    after ((State.reset.setPc 0xFFE).withFetchWord 16 0x6007) (fun t => (t.readV 0, t.pc))
      = some (0x07, 0x1000)
    ∧ after (State.reset.setPc 0x1000) (·.status) = some (.faulted .fetchOutOfRange) := by decide

/-- V7 -/
theorem test_faulted_stays :
    (State.reset.setStatus (.faulted .stackOverflow)).report = some (.fatal .stackOverflow)
    ∧ (State.reset.setStatus (.faulted .stackOverflow)).act .step
      = State.reset.setStatus (.faulted .stackOverflow) := by decide

/-- What the host's call returns (40_cycle.md R74; UnknownOpcode is the non-fatal E4). -/
theorem test_api : (start 0x0000).report.map Report.apiValue = some (.ok none)
    ∧ (start 0x6A12).report.map Report.apiValue = some (.ok (some (.ldImm 0xA 0x12)))
    ∧ (start 0x00EE).report.map Report.apiValue = some (.error .stackUnderflow)
    ∧ (start 0x0123).report.bind Report.error = some .unknownOpcode := by decide

/-! ### Flow -/

/-- V12 -/
theorem test_jp : after (start 0x1234) (·.pc) = some 0x234 := by decide

/-- V15 -/
theorem test_call : after (start 0x2400) (fun t => (t.stackAt 0, t.sp.val, t.pc))
    = some (0x202, 1, 0x400) := by decide

/-- V16 -/
theorem test_call_full : after { start 0x2400 with sp := 16 } id
    = some { start 0x2400 with sp := 16, status := .faulted .stackOverflow } := by decide

/-- V19 -/
theorem test_ret : after { start 0x00EE with
      stack := #v[0x222, 0x444, 0, 0, 0, 0, 0, 0, 0, 0, 0, 0, 0, 0, 0, 0]
      sp := 2 } (fun t => (t.pc, t.sp.val, t.stackAt 1)) = some (0x444, 1, 0x444) := by decide

/-- V18 -/
theorem test_ret_empty : after (start 0x00EE) id
    = some { start 0x00EE with status := .faulted .stackUnderflow } := by decide

/-- V20, V21 -/
theorem test_seImm : after (withV 3 0x10 (start 0x3310)) (·.pc) = some 0x204
    ∧ after (withV 3 0x11 (start 0x3310)) (·.pc) = some 0x202 := by decide

/-- V22 -/
theorem test_sneImm : after (withV 3 0x10 (start 0x4310)) (·.pc) = some 0x202
    ∧ after (withV 3 0x11 (start 0x4310)) (·.pc) = some 0x204 := by decide

/-- V23, and unequal registers. -/
theorem test_seReg : after (start 0x5110) (·.pc) = some 0x204
    ∧ after (withV 2 0x01 (start 0x5120)) (·.pc) = some 0x202 := by decide

/-- V24, and unequal registers. -/
theorem test_sneReg : after (start 0x9110) (·.pc) = some 0x202
    ∧ after (withV 2 0x01 (start 0x9120)) (·.pc) = some 0x204 := by decide

/-- V27, V28: no 12-bit wrap. -/
theorem test_jpV0 : after (withV 0 0xFF (start 0xBF01)) (·.pc) = some 0x1000
    ∧ after (withV 0 0x01 (start 0xB2FF)) (·.pc) = some 0x300 := by decide

/-! ### Registers and arithmetic -/

/-- V30 -/
theorem test_ldImm : after (start 0x6FAA) (·.readV 15) = some 0xAA := by decide

/-- V31 -/
theorem test_addImm : after (withV 0 0xFF (withV 15 0x55 (start 0x7001))) v0f
    = some (0x00, 0x55) := by decide

/-- V33 -/
theorem test_ldReg : after (withV 1 0x2A (withV 15 0x77 (start 0x8010))) v0f
    = some (0x2A, 0x77) := by decide

/-- V34, V35, V36 -/
theorem test_logic :
    after (withV 0 0xF0 (withV 1 0x0C (withV 15 0x77 (start 0x8011)))) v0f = some (0xFC, 0x77)
    ∧ after (withV 0 0xF0 (withV 1 0x3C (withV 15 0x77 (start 0x8012)))) v0f = some (0x30, 0x77)
    ∧ after (withV 0 0xF0 (withV 1 0x3C (withV 15 0x77 (start 0x8013)))) v0f = some (0xCC, 0x77) := by
  decide

/-- V38, V39 -/
theorem test_addReg : after (withV 0 0x80 (withV 1 0x80 (start 0x8014))) v0f = some (0x00, 1)
    ∧ after (withV 0 0x7F (withV 1 0x80 (start 0x8014))) v0f = some (0xFF, 0) := by decide

/-- V40, V41: the flag is written last. -/
theorem test_addReg_flag_last :
    after (withV 15 0x10 (withV 1 0x20 (start 0x8F14))) (·.readV 15) = some 0
    ∧ after (withV 15 0x80 (start 0x8FF4)) (·.readV 15) = some 1 := by decide

/-- V42, V43 -/
theorem test_subReg :
    after (withV 1 0x10 (withV 15 0x05 (start 0x81F5))) (fun t => (t.readV 1, t.readV 15))
      = some (0x0B, 1)
    ∧ after (withV 0 0x00 (withV 1 0x01 (start 0x8015))) v0f = some (0xFF, 0) := by decide

/-- V45, V46 -/
theorem test_subn : after (withV 0 0x05 (withV 1 0x05 (start 0x8017))) v0f = some (0x00, 1)
    ∧ after (withV 0 0x05 (withV 1 0x03 (start 0x8017))) v0f = some (0xFE, 0) := by decide

/-- V49, V50 -/
theorem test_shr : after (withV 0 0x02 (withV 1 0xFF (start 0x8016))) v0f = some (0x01, 0)
    ∧ after (withV 15 0x03 (start 0x8FF6)) (·.readV 15) = some 1 := by decide

/-- V51, V53 -/
theorem test_shl : after (withV 0 0x80 (start 0x800E)) v0f = some (0x00, 1)
    ∧ after (withV 15 0x40 (start 0x8FFE)) (·.readV 15) = some 0 := by decide

/-- V54, the draw being 0xA7; and the draw is counted. -/
theorem test_rnd : (State.reset.takeRandom 0xA7 0 0x0F).readV 0 = 0x07
    ∧ (State.reset.takeRandom 0xA7 0 0x0F).rngDraws = 1 := by decide

/-- V55: with mask 00 the result is 00 whatever the draw. -/
theorem test_rnd_step : after (start 0xC0FF) (·.readV 0) = some (Config.randomByte 0) := by
  show some ((State.takeRandom _ (Config.randomByte 0) 0 0xFF).readV 0) = _
  rw [State.takeRandom, countDraw_readV, readV_writeV_same]
  exact congrArg some (BitVec.and_allOnes)

/-! ### Index register and memory -/

/-- V57 -/
theorem test_ldI : after (start 0xAFFF) (·.i) = some 0xFFF := by decide

/-- V58 -/
theorem test_addIVx : after (withI 0xFFF (withV 0 0x02 (withV 15 0x33 (start 0xF01E))))
    (fun t => (t.i, t.readV 15)) = some (0x001, 0x33) := by decide

/-- V61 -/
theorem test_ldFVx : after (withV 0 0x1F (start 0xF029)) (·.i) = some 0x04B := by decide

/-- V62: another FONT_BASE. -/
theorem test_ldFVx_base :
    after (((State.init { defaultConfig with fontBase := 0x050 }).withFetchWord 16 0xF029).writeV 0 0x07)
      (·.i) = some 0x073 := by decide

/-- V64 -/
theorem test_ldBVx : after (withV 0 0xFF (withI 0x300 (start 0xF033)))
    (fun t => (t.readMem 0x300, t.readMem 0x301, t.readMem 0x302)) = some (0x02, 0x05, 0x05) := by
  decide

/-- V66: the wrap past 0xFFF. -/
theorem test_ldBVx_wrap : after (withV 0 0x80 (withI 0xFFE (start 0xF033)))
    (fun t => (t.readMem 0xFFE, t.readMem 0xFFF, t.readMem 0x000)) = some (0x01, 0x02, 0x08) := by
  decide

/-- V67 -/
theorem test_ldMemVx : after (withV 0 0xAB (withV 1 0xCD (withI 0x400 (start 0xF055))))
    (fun t => (t.readMem 0x400, t.readMem 0x401, t.i)) = some (0xAB, 0x00, 0x400) := by decide

/-- V68: the wrap. -/
theorem test_ldMemVx_wrap : after (withV 0 0x11 (withV 1 0x22 (withI 0xFFF (start 0xF155))))
    (fun t => (t.readMem 0xFFF, t.readMem 0x000, t.i)) = some (0x11, 0x22, 0xFFF) := by decide

/-- V71: the wrap into the font table. -/
theorem test_ldVxMem : after (withByte 0xFFF 0x9A (withI 0xFFF (start 0xF165)))
    (fun t => (t.readV 0, t.readV 1)) = some (0x9A, 0xF0) := by decide

/-- V72: the step runs the word it fetched, and the next fetch sees the store. -/
theorem test_self_modifying : after (withI 0x200 (start 0xF055)) (fun t => (t.readMem 0x200, t.pc,
    decode (t.setPc 0x200).fetchWord)) = some (0x00, 0x202, .unknown 0x0055) := by decide

/-! ### Display -/

/-- V73 -/
theorem test_cls : after { start 0x00E0 with fb := clearFramebuffer.flip 3 5 }
    (fun t => (t.fb, t.readV 15)) = some (clearFramebuffer, 0) := by decide

/-- V76: both coordinates reduced. -/
theorem test_drw_wrap_start :
    after (withV 0 0xC8 (withV 1 0x28 (withByte 0x300 0x80 (withI 0x300 (start 0xD011)))))
      (fun t => (t.fb, t.readV 15)) = some (clearFramebuffer.flip 8 8, 0) := by decide

/-- V77: a collision. -/
theorem test_drw_collision :
    after { withByte 0x300 0xC0 (withI 0x300 (start 0xD011)) with fb := clearFramebuffer.flip 0 0 }
      (fun t => (t.fb, t.readV 15)) = some (clearFramebuffer.flip 0 1, 1) := by decide

/-! ### Keypad and timers -/

/-- V83, V84 -/
theorem test_skp : after (withV 5 0x0A (withKey 0xA (start 0xE59E))) (·.pc) = some 0x204
    ∧ after (withV 5 0x0A (start 0xE59E)) (·.pc) = some 0x202 := by decide

/-- V85, V87 -/
theorem test_sknp : after (withV 5 0x0A (start 0xE5A1)) (·.pc) = some 0x204
    ∧ after (withV 5 0xFF (start 0xE5A1)) (·.status) = some (.faulted .keyIndexOutOfRange) := by
  decide

/-- V88 -/
theorem test_ldVxDt : after ((start 0xF007).setDt 0x3C) (·.readV 0) = some 0x3C := by decide

/-- V89 -/
theorem test_ldDtVx : after (withV 0 0x3C (start 0xF015)) (·.dt) = some 0x3C := by decide

/-- V90 -/
theorem test_ldStVx : after ((start 0xF018).setSt 0x05) (fun t => (t.st, t.soundActive))
    = some (0x00, false) := by decide

/-- V93: a held key does not count. -/
theorem test_ldVxK_held : after (withKey 5 (start 0xF00A)) (fun t => (t.status,
    (t.setKey 5 true).latchedKey)) = some (.waiting 0, none) := by decide

/-- V95, V96: the first press wins, and survives its release. -/
theorem test_latch :
    let t := State.reset.setStatus (.waiting 0)
    ((t.setKey 2 true).setKey 9 true).latchedKey = some 2
    ∧ ((t.setKey 4 true).setKey 4 false).latchedKey = some 4
    ∧ after ((t.setKey 4 true).setKey 4 false) (fun u => (u.readV 0, u.status, u.keyAt 4))
      = some (0x04, .running, false) := by decide

/-- V91, V92 -/
theorem test_tick : ((State.reset.setSt 1).tickTimers.dt, (State.reset.setSt 1).tickTimers.st) = (0, 0)
    ∧ (State.reset.setDt 2).tickTimers.dt = 1 := by decide

/-! ### Witnesses: for each statement with hypotheses, concrete data that meet them -/

theorem witness_DecodeEncodeRoundTrip : (Instr.unknown 0x5121).wellFormed = true
    ∧ (Instr.drw 15 15 15).wellFormed = true ∧ (Instr.jp 0xFFF).wellFormed = true := by decide

theorem witness_UnknownSpaceIsExact : isUnknownWord 0xF0FF = true
    ∧ decode 0xF0FF = .unknown 0xF0FF ∧ isUnknownWord 0xF065 = false := by decide

theorem witness_DecodeFollowsEveryRow :
    (∃ r ∈ opcodeRows, (0xFF65 : Word) &&& r.mask = r.bits)
    ∧ (0xFF66 : Word) ≠ 0x0000 ∧ ∀ r ∈ opcodeRows, (0xFF66 : Word) &&& r.mask ≠ r.bits := by decide

theorem witness_DecoderConsumesTwoBytes : ([0x12] : List Byte).length < 2
    ∧ ([] : List Byte).length < 2 ∧ (Instr.unknown 0x5121).wellFormed = true := by decide

/-- A fetch at the lowest and at the highest legal address. -/
theorem witness_StepRunsDecodedInstruction : Fetches (start 0x6A12) 0x6A12
    ∧ Fetches ((State.reset.setPc 0xFFE).withFetchWord 16 0x6007) 0x6007
    ∧ (0x6A12 : Word) ≠ 0x0000 :=
  ⟨(fetches_iff _ _).mpr (by decide), (fetches_iff _ _).mpr (by decide), by decide⟩

theorem witness_WithFetchWordIsFetched : State.reset.status = .running
    ∧ State.reset.pc.toNat % 2 = 0 ∧ 0x200 ≤ State.reset.pc.toNat ∧ State.reset.pc.toNat ≤ 0xFFE := by
  decide

theorem witness_HaltIsAFixedPoint : Fetches State.reset 0x0000 :=
  (fetches_iff _ _).mpr (by decide)

/-- Each of the three ways a fetch is illegal, at its boundary. -/
theorem witness_BadFetchIsFatal : (State.reset.setPc 0x201).status = .running
    ∧ (State.reset.setPc 0x201).pc.toNat % 2 = 1 ∧ (State.reset.setPc 0x1FE).pc.toNat < 0x200
    ∧ 0xFFE < (State.reset.setPc 0x1000).pc.toNat := by decide

theorem witness_FaultedIsPermanent :
    (State.reset.setStatus (.faulted .keyIndexOutOfRange)).status = .faulted .keyIndexOutOfRange
    ∧ step (State.reset.setStatus (.faulted .keyIndexOutOfRange)) = .fault .keyIndexOutOfRange :=
  ⟨rfl, rfl⟩

theorem witness_WaitingWithoutKeyChangesNothing :
    (State.reset.setStatus (.waiting 15)).status = .waiting 15
    ∧ (State.reset.setStatus (.waiting 15)).latchedKey = none := ⟨rfl, rfl⟩

theorem witness_WaitingWithKeyCompletes :
    ((State.reset.setStatus (.waiting 15)).setLatch (some 15)).status = .waiting 15
    ∧ ((State.reset.setStatus (.waiting 15)).setLatch (some 15)).latchedKey = some 15 := ⟨rfl, rfl⟩

theorem witness_UnknownWordIsANoOp : Fetches (start 0x0123) 0x0123 ∧ isUnknownWord 0x0123 = true :=
  ⟨(fetches_iff _ _).mpr (by decide), by decide⟩

/-- Each of the four fatal errors is entered by some step of a Running core. -/
theorem witness_FatalErrorsArePrecise :
    after { start 0x2400 with sp := 16 } (·.status) = some (.faulted .stackOverflow)
    ∧ after (start 0x00EE) (·.status) = some (.faulted .stackUnderflow)
    ∧ after (State.reset.setPc 0x1000) (·.status) = some (.faulted .fetchOutOfRange)
    ∧ after (withV 5 0x10 (start 0xE59E)) (·.status) = some (.faulted .keyIndexOutOfRange) := by decide

/-- Each of the three conditions on a fetched word. -/
theorem witness_FatalErrorConditions :
    (Fetches { start 0x2400 with sp := 16 } 0x2400 ∧ decode 0x2400 = .call 0x400)
    ∧ (Fetches (start 0x00EE) 0x00EE ∧ (start 0x00EE).sp.val = 0)
    ∧ (Fetches (withV 5 0x10 (start 0xE59E)) 0xE59E ∧ 15 < ((withV 5 0x10 (start 0xE59E)).readV 5).toNat
      ∧ decode 0xE59E = .skp 5) :=
  ⟨⟨(fetches_iff _ _).mpr (by decide), by decide⟩, ⟨(fetches_iff _ _).mpr (by decide), by decide⟩,
    (fetches_iff _ _).mpr (by decide), by decide, by decide⟩

/-- The largest FONT_BASE that R7 allows. -/
theorem witness_HaltedExactlyAtZeroWord : defaultConfig.wf
    ∧ ({ defaultConfig with fontBase := 0x1B0 } : Config).wf := by decide

theorem witness_StepReportsTheDescriptor : Fetches (start 0x6A12) 0x6A12 ∧ (0x6A12 : Word) ≠ 0x0000
    ∧ isUnknownWord 0x6A12 = false ∧ after (start 0x6A12) (·.status) = some .running :=
  ⟨(fetches_iff _ _).mpr (by decide), by decide, by decide, by decide⟩

/-- SP at both ends of its range, and at both ends of each clause. -/
theorem witness_StackPrimitives : State.reset.sp.val = (0 : Fin 16).val
    ∧ ({ State.reset with sp := 15 } : State).sp.val = (15 : Fin 16).val
    ∧ ({ State.reset with sp := 16 } : State).sp.val = 16
    ∧ ({ State.reset with sp := 16 } : State).sp.val = (15 : Fin 16).val + 1
    ∧ ({ State.reset with sp := 1 } : State).sp.val = (0 : Fin 16).val + 1 := by decide

theorem witness_RetPopsPc : ({ start 0x00EE with sp := 16 } : State).sp.val = (15 : Fin 16).val + 1
    ∧ Fetches (start 0x00EE) 0x00EE ∧ (start 0x00EE).sp.val = 0 :=
  ⟨by decide, (fetches_iff _ _).mpr (by decide), by decide⟩

theorem witness_CallPushesPc : ({ start 0x2400 with sp := 15 } : State).sp.val = (15 : Fin 16).val
    ∧ Fetches { start 0x2400 with sp := 16 } (0x2000 ||| placeNNN 0x400)
    ∧ ({ start 0x2400 with sp := 16 } : State).sp.val = 16 :=
  ⟨by decide, (fetches_iff _ _).mpr (by decide), by decide⟩

/-- W7: CALL 0x400 at 0x300, RET at 0x400. -/
def callSite : State :=
  withByte 0x401 0xEE ((State.reset.setPc 0x300).withFetchWord 16 0x2400)

theorem witness_CallThenRetReturns : Fetches callSite (0x2000 ||| placeNNN 0x400)
    ∧ callSite.sp.val = (0 : Fin 16).val ∧ Fetches { callSite with pc := zextAddr 0x400 } 0x00EE :=
  ⟨(fetches_iff _ _).mpr (by decide), by decide, (fetches_iff _ _).mpr (by decide)⟩

/-- With x = F the flag clause gives V[x] (V40, V41). -/
theorem witness_AddRegisterSetsCarry : (0 : RegIdx) ≠ 15 ∧ (14 : RegIdx) ≠ 15 := by decide

theorem witness_SubtractSetsNoBorrow : (0 : RegIdx) ≠ 15 ∧ (14 : RegIdx) ≠ 15 := by decide

theorem witness_ShiftsMoveOneBit : (0 : RegIdx) ≠ 15 ∧ (14 : RegIdx) ≠ 15 := by decide

theorem witness_RandomIsAnyByteWithinMask : (0x07 : Byte) &&& ~~~0x0F = 0
    ∧ (0x00 : Byte) &&& ~~~0x00 = 0 ∧ (0xFF : Byte) &&& ~~~0xFF = 0 := by decide

theorem witness_StoreRegistersAtIndex : (0 : RegIdx) ≤ 0 ∧ (15 : RegIdx) ≤ 15 := by decide

/-- A register at each end of the range, and one beyond it. -/
theorem witness_LoadRegistersFromIndex : (0 : RegIdx) ≤ 0 ∧ (15 : RegIdx) ≤ 15 ∧ (0 : RegIdx) < 1 := by
  decide

/-- A sprite of one row with one set bit, on a framebuffer with that cell set. -/
def collisionState : State :=
  { withByte 0x300 0x80 (withI 0x300 (start 0xD011)) with fb := clearFramebuffer.flip 31 63 }

theorem witness_DrawFlipsExactlyTheLitCells :
    (Lights collisionState 63 31 1 31 63 ∧ collisionState.fb.pixel 31 63 = true)
    ∧ ¬ Lights collisionState 63 31 0 31 63 :=
  ⟨⟨⟨0, 0, by decide⟩, by decide⟩, fun ⟨_, _, h, _⟩ => absurd h (Nat.not_lt_zero _)⟩

theorem witness_DrawTwiceRestoresFramebuffer : (0 : RegIdx) ≠ 15
    ∧ ∀ row col, State.reset.fb.pixel row col = false :=
  ⟨by decide, clearFramebuffer_pixel⟩

/-- The largest key, and the smallest value that names none. -/
theorem witness_KeySkips : ((withV 5 0x0F (start 0xE59E)).readV 5).toNat = (15 : KeyIdx).val
    ∧ 15 < ((withV 5 0x10 (start 0xE59E)).readV 5).toNat
    ∧ Fetches (withV 5 0x10 (start 0xE59E)) (0xE09E ||| placeX 5)
    ∧ Fetches (withV 5 0xFF (start 0xE5A1)) (0xE0A1 ||| placeX 5) :=
  ⟨by decide, by decide, (fetches_iff _ _).mpr (by decide), (fetches_iff _ _).mpr (by decide)⟩

/-- The host's moves between the press and the step: each kind of them, and with no program loaded. -/
theorem witness_WaitEndsWithFirstPress : Fetches (start 0xFF0A) (0xF00A ||| placeX 15)
    ∧ (start 0xFF0A).keyAt 12 = false
    ∧ .step ∉ [Action.tickTimers, .setKey 9 true, .setKey 12 false, .loadProgram [0x12], .framebuffer,
        .soundActive]
    ∧ ∀ bytes, .loadProgram bytes ∉ [Action.tickTimers, .setKey 9 true, .framebuffer] :=
  ⟨(fetches_iff _ _).mpr (by decide), by decide, by simp, by simp⟩

/-- An event that latches, and each way an event does not. -/
theorem witness_SetKeyLatchesFirstPress :
    (State.reset.setStatus (.waiting 0)).latches 5 true = true
    ∧ State.reset.latches 5 true = false
    ∧ ((State.reset.setStatus (.waiting 0)).setLatch (some 2)).latches 5 true = false
    ∧ (State.reset.setStatus (.waiting 0)).latches 5 false = false
    ∧ ((State.reset.setStatus (.waiting 0)).setKeyAt 5 true).latches 5 true = false := by decide

/-- V8, V9, V10: the smallest image that is too large, the largest that is not, and the empty one. -/
theorem witness_LoadProgramCopiesImage : 4096 - 0x200 < (List.replicate 3585 (0x11 : Byte)).length
    ∧ (List.replicate 3584 (0x11 : Byte)).length ≤ 4096 - 0x200
    ∧ ([] : List Byte).length ≤ 4096 - 0x200 ∧ (0x1FF : Addr).toNat < 0x200
    ∧ 0x200 + ([] : List Byte).length ≤ (0x200 : Addr).toNat := by
  rw [List.length_replicate, List.length_replicate]
  decide

theorem witness_InitialStateSatisfiesInvariant : defaultConfig.wf := by decide

theorem witness_ResetMemoryAndStatus : ({ defaultConfig with fontBase := 0x1B0 } : Config).wf
    ∧ (0x1AF : Addr).toNat < 0x1B0 ∧ 0x1B0 + 80 ≤ (0x200 : Addr).toNat := by decide

/-- A state with a program word, a register and a stored byte, and its invariant. -/
theorem start_inv : (withV 3 0x11 (start 0x6A12)).Inv where
  config := by decide
  memory := by decide
  index := by decide
  pcBound := by decide
  returns := by decide
  latch := fun h => absurd rfl h

theorem witness_StepKeepsInvariant : (withV 3 0x11 (start 0x6A12)).Inv
    ∧ step (withV 3 0x11 (start 0x6A12)) = .next ((withV 3 0x11 (start 0x6A12)).act .step) :=
  ⟨start_inv, rfl⟩

theorem witness_EveryRunKeepsInvariant : (withV 3 0x11 (start 0x6A12)).Inv := start_inv

theorem witness_OnlyNamedRegistersChange :
    exec (.addReg 1 2) State.reset = .next (State.reset.writeVFlag 1 0 0)
    ∧ writesReg (.addReg 1 2) 2 = false ∧ writesReg (.ldVxMem 3) 4 = false := by
  exact ⟨rfl, by decide, by decide⟩

/-- Steps that change I, the stack and SP. -/
theorem witness_WritersOfIndexAndStack : after (start 0xA123) (fun t => t.i ≠ (start 0xA123).i) = some True
    ∧ after (start 0x2400) (fun t => t.stack ≠ (start 0x2400).stack ∧ t.sp ≠ (start 0x2400).sp)
      = some True := by
  constructor <;> exact congrArg some (eq_true (by decide))

/-- Steps that change the framebuffer and memory. -/
theorem witness_WritersOfFramebufferAndMemory :
    after (withI 0x200 (start 0xD011)) (fun t => t.fb ≠ State.reset.fb) = some True
    ∧ after (withV 0 0xAB (withI 0x400 (start 0xF055))) (fun t => t.readMem 0x400 ≠ 0) = some True := by
  constructor <;> exact congrArg some (eq_true (by decide))

/-- Steps that change the timers. -/
theorem witness_KeypadAndTimersAreTheHosts :
    after (withV 0 0x3C (start 0xF015)) (fun t => t.dt ≠ 0) = some True
    ∧ after (withV 0 0x3C (start 0xF018)) (fun t => t.st ≠ 0) = some True := by
  constructor <;> exact congrArg some (eq_true (by decide))

/-- A step that suspends, and one that resumes. -/
theorem witness_OnlyFx0ASuspends :
    (State.reset.status = .running ∧ after (start 0xF30A) (·.status) = some (.waiting 3))
    ∧ after ((State.reset.setStatus (.waiting 3)).setLatch (some 7)) (·.status) = some .running := by
  decide

theorem witness_SoundTimerIsNeverRead : step (start 0xF018) = .next ((start 0xF018).act .step) := rfl

/-- Two states that differ in the dead part of the stack, and a step of the first. -/
theorem witness_DeadStackIsNeverRead :
    SameButDeadStack (start 0x2400) { start 0x2400 with stack := Vector.replicate 16 0x0ABC }
    ∧ (start 0x2400).stack ≠ Vector.replicate 16 0x0ABC
    ∧ step (start 0x2400) = .next ((start 0x2400).act .step) :=
  ⟨⟨rfl, fun _ h => absurd h (Nat.not_lt_zero _), rfl⟩, by decide, rfl⟩

end Sys2Proof.Tests
end

section
/-! The registers of an initialized machine (10_state.md R22, R25, R29, R31, R34). `init_readV` and
`init_stackAt` stand in Laws/State.lean; the fields that are read directly are here. -/

namespace Sys2Proof.Machine

@[simp] theorem init_i (cfg : Config) : (State.init cfg).i = 0 := rfl
@[simp] theorem init_pc (cfg : Config) : (State.init cfg).pc = programBase := rfl
@[simp] theorem init_sp (cfg : Config) : (State.init cfg).sp = 0 := rfl
@[simp] theorem init_dt (cfg : Config) : (State.init cfg).dt = 0 := rfl
@[simp] theorem init_st (cfg : Config) : (State.init cfg).st = 0 := rfl

/-- Settles O47: each conjunct is what `State.init`, which reads `cfg` for none of these fields,
puts there; the register file and the stack are read through their accessors' laws. -/
theorem resetRegisters : Obligations.ResetRegisters := by
  have reset_eq : State.reset = State.init defaultConfig := rfl
  refine ⟨reset_eq, fun cfg => ?_⟩
  have sp_zero : (State.init cfg).sp.val = 0 := congrArg Fin.val (init_sp cfg)
  exact ⟨init_readV cfg, init_pc cfg, sp_zero, init_stackAt cfg, init_i cfg, init_dt cfg,
    init_st cfg⟩

end Sys2Proof.Machine
end

section
/-! Decoding what the encoder spells (30_encoding.md R63 to R67, R71). At most one row covers a word, so a
word decodes by any row that covers it; the word of an instruction is covered by that instruction's row,
and a word of the unknown space (R65) by none. -/

namespace Sys2Proof

/-! ### A word decodes by any row that covers it (R66) -/

/-- Two rows that cover the same word are one row: otherwise their match values would agree where both
masks look. -/
theorem opcodeRows_eq_of_covers {r r' : Row} (hr : r ∈ opcodeRows) (hr' : r' ∈ opcodeRows) {w : Word}
    (h : w &&& r.mask = r.bits) (h' : w &&& r'.mask = r'.bits) : r = r' := by
  have symm : Std.Symm (fun a b : Row => a.bits &&& b.mask ≠ b.bits &&& a.mask) :=
    ⟨fun _ _ => Ne.symm⟩
  by_contra hne
  apply opcodeRows_pairwise_distinct.forall hr hr' hne
  rw [← h, ← h', BitVec.and_assoc, BitVec.and_assoc, BitVec.and_comm r.mask]

theorem decode_of_covers {r : Row} (hr : r ∈ opcodeRows) {w : Word} (h : w &&& r.mask = r.bits) :
    decode w = r.descriptor w := by
  have nonzero : w ≠ 0x0000 := by
    rintro rfl
    exact opcodeRows_bits_ne_zero r hr (h.symm.trans BitVec.zero_and)
  have found : opcodeRows.find? (·.covers w) = some r := by
    cases hf : opcodeRows.find? (·.covers w) with
    | none => exact absurd (beq_iff_eq.mpr h) (List.find?_eq_none.mp hf r hr)
    | some r' =>
      have hc : r'.covers w = true := List.find?_some (p := fun r : Row => r.covers w) hf
      rw [opcodeRows_eq_of_covers hr (List.mem_of_find?_eq_some hf) h (beq_iff_eq.mp hc)]
  rw [decode, if_neg nonzero, found]

theorem decode_of_not_covered {w : Word} (h0 : w ≠ 0x0000)
    (h : ∀ r ∈ opcodeRows, w &&& r.mask ≠ r.bits) : decode w = .unknown w := by
  have not_found : opcodeRows.find? (·.covers w) = none :=
    List.find?_eq_none.mpr fun r hr hc => h r hr (beq_iff_eq.mp hc)
  rw [decode, if_neg h0, not_found]

/-! ### The words of each form of row (R61, R63) -/

section
variable {m b : Word} {d : Word → Instr}

theorem bits_and_mask_of_mem (hr : ⟨m, b, d⟩ ∈ opcodeRows) : b &&& m = b := by
  have masked : ∀ r ∈ opcodeRows, r.bits &&& r.mask = r.bits := by decide
  exact masked _ hr

/-- The match value of a row is 0 where its mask does not look. -/
theorem bits_field_zero_of_mem {k n : Nat} (hr : ⟨m, b, d⟩ ∈ opcodeRows)
    (hm : m.extractLsb' k n = 0) : b.extractLsb' k n = 0 := by
  rw [← bits_and_mask_of_mem hr, BitVec.extractLsb'_and, hm]
  exact BitVec.and_zero

theorem decode_place_nnn {f : Addr → Instr} (nnn : Addr)
    (hr : ⟨0xF000, b, fun w => f (fieldNNN w)⟩ ∈ opcodeRows := by
      simp [opcodeRows, rowsFlow, rowsAlu, rowsMisc]) :
    decode (b ||| placeNNN nnn) = f nnn := by
  have covered : (b ||| placeNNN nnn) &&& 0xF000 = b := by
    rw [BitVec.and_or_distrib_right, bits_and_mask_of_mem hr, placeNNN_and]
    exact BitVec.or_zero
  rw [decode_of_covers hr covered]
  exact congrArg f (fieldNNN_of_place b nnn (bits_field_zero_of_mem hr rfl))

theorem decode_place_x {f : RegIdx → Instr} (x : RegIdx)
    (hr : ⟨0xF0FF, b, fun w => f (fieldX w)⟩ ∈ opcodeRows := by
      simp [opcodeRows, rowsFlow, rowsAlu, rowsMisc]) :
    decode (b ||| placeX x) = f x := by
  have covered : (b ||| placeX x) &&& 0xF0FF = b := by
    rw [BitVec.and_or_distrib_right, bits_and_mask_of_mem hr, (placeX_and x).2.2]
    exact BitVec.or_zero
  rw [decode_of_covers hr covered]
  exact congrArg f (fieldX_of_place b x (bits_field_zero_of_mem hr rfl))

theorem decode_place_x_kk {f : RegIdx → Byte → Instr} (x : RegIdx) (kk : Byte)
    (hr : ⟨0xF000, b, fun w => f (fieldX w) (fieldKK w)⟩ ∈ opcodeRows := by
      simp [opcodeRows, rowsFlow, rowsAlu, rowsMisc]) :
    decode (b ||| placeX x ||| placeKK kk) = f x kk := by
  have covered : (b ||| placeX x ||| placeKK kk) &&& 0xF000 = b := by
    rw [BitVec.and_or_distrib_right, BitVec.and_or_distrib_right, bits_and_mask_of_mem hr,
      (placeX_and x).1, placeKK_and]
    exact BitVec.or_zero.trans BitVec.or_zero
  obtain ⟨hx, hkk⟩ := fields_of_place_kk b x kk (bits_field_zero_of_mem hr (by decide))
    (bits_field_zero_of_mem hr (by decide))
  rw [decode_of_covers hr covered]
  exact congrArg₂ f hx hkk

theorem decode_place_x_y {f : RegIdx → RegIdx → Instr} (x y : RegIdx)
    (hr : ⟨0xF00F, b, fun w => f (fieldX w) (fieldY w)⟩ ∈ opcodeRows := by
      simp [opcodeRows, rowsFlow, rowsAlu, rowsMisc]) :
    decode (b ||| placeX x ||| placeY y) = f x y := by
  have covered : (b ||| placeX x ||| placeY y) &&& 0xF00F = b := by
    rw [BitVec.and_or_distrib_right, BitVec.and_or_distrib_right, bits_and_mask_of_mem hr,
      (placeX_and x).2.1, (placeY_and y).2]
    exact BitVec.or_zero.trans BitVec.or_zero
  obtain ⟨hx, hy⟩ := fields_of_place_y b x y (bits_field_zero_of_mem hr (by decide))
    (bits_field_zero_of_mem hr (by decide))
  rw [decode_of_covers hr covered]
  exact congrArg₂ f hx hy

end

theorem decode_encode_drw (x y : RegIdx) (n : Fin 16) :
    decode (encode (.drw x y n)) = .drw x y n := by
  obtain ⟨hx, hy, hn⟩ := fields_of_place_yn 0xD000 x y n (by decide) (by decide) (by decide)
  rw [decode_of_covers (r := ⟨0xF000, 0xD000, fun w => .drw (fieldX w) (fieldY w) (fieldN w)⟩)
    (by simp [opcodeRows, rowsMisc]) (Laws.RowPattern.drw x y n _ _ rfl)]
  simp only [encode, hx, hy, hn]

/-! ### No row covers an unknown word (R65) -/

/-- A field that a row's mask reads whole is the row's own in every word that the row covers. -/
theorem field_eq_bits_of_covers {r : Row} {w : Word} {k n : Nat} (h : w &&& r.mask = r.bits)
    (hm : r.mask.extractLsb' k n = BitVec.allOnes n) :
    w.extractLsb' k n = r.bits.extractLsb' k n := by
  rw [← h, BitVec.extractLsb'_and, hm, BitVec.and_allOnes]

theorem fieldClass_eq_bits_of_covers {r : Row} (hr : r ∈ opcodeRows) {w : Word}
    (h : w &&& r.mask = r.bits) : fieldClass w = fieldClass r.bits := by
  have reads_class : ∀ r ∈ opcodeRows, r.mask.extractLsb' 12 4 = BitVec.allOnes 4 := by decide
  exact congrArg BitVec.toFin (field_eq_bits_of_covers h (reads_class r hr))

section
variable {w w' : Word} (hc : fieldClass w = fieldClass w')
include hc

/-- In these classes no word is unknown. -/
theorem isUnknownWord_congr_class
    (h : fieldClass w' ∈ [0x1, 0x2, 0x3, 0x4, 0x6, 0x7, 0xA, 0xB, 0xC, 0xD]) :
    isUnknownWord w = isUnknownWord w' := by
  unfold isUnknownWord
  rw [hc]
  generalize fieldClass w' = c at h
  fin_cases h <;> rfl

/-- In these classes n says whether a word is unknown. -/
theorem isUnknownWord_congr_n (h : fieldClass w' ∈ [0x5, 0x8, 0x9]) (hn : fieldN w = fieldN w') :
    isUnknownWord w = isUnknownWord w' := by
  unfold isUnknownWord
  rw [hc, hn]
  generalize fieldClass w' = c at h
  fin_cases h <;> rfl

/-- In these classes kk says whether a word is unknown. -/
theorem isUnknownWord_congr_kk (h : fieldClass w' ∈ [0xE, 0xF]) (hkk : fieldKK w = fieldKK w') :
    isUnknownWord w = isUnknownWord w' := by
  unfold isUnknownWord
  rw [hc, hkk]
  generalize fieldClass w' = c at h
  fin_cases h <;> rfl

end

/-- A row's mask reads the whole word, or exactly the fields on which R65 makes its class depend. -/
theorem opcodeRows_mask_cases : ∀ r ∈ opcodeRows,
    r.mask = 0xFFFF
    ∨ (r.mask = 0xF000
      ∧ fieldClass r.bits ∈ [0x1, 0x2, 0x3, 0x4, 0x6, 0x7, 0xA, 0xB, 0xC, 0xD])
    ∨ (r.mask = 0xF00F ∧ fieldClass r.bits ∈ [0x5, 0x8, 0x9])
    ∨ (r.mask = 0xF0FF ∧ fieldClass r.bits ∈ [0xE, 0xF]) := by
  decide

theorem isUnknownWord_eq_false_of_covers {r : Row} (hr : r ∈ opcodeRows) {w : Word}
    (h : w &&& r.mask = r.bits) : isUnknownWord w = false := by
  have known : ∀ r ∈ opcodeRows, isUnknownWord r.bits = false := by decide
  rw [← known r hr]
  have hc : fieldClass w = fieldClass r.bits := fieldClass_eq_bits_of_covers hr h
  obtain hm | ⟨hm, hcls⟩ | ⟨hm, hcls⟩ | ⟨hm, hcls⟩ := opcodeRows_mask_cases r hr
  · rw [← h, hm, and_FFFF]
  · exact isUnknownWord_congr_class hc hcls
  · have hn : fieldN w = fieldN r.bits :=
      congrArg BitVec.toFin (field_eq_bits_of_covers h (by rw [hm]; rfl))
    exact isUnknownWord_congr_n hc hcls hn
  · have hkk : fieldKK w = fieldKK r.bits := field_eq_bits_of_covers h (by rw [hm]; rfl)
    exact isUnknownWord_congr_kk hc hcls hkk

theorem decode_of_isUnknownWord {w : Word} (h : isUnknownWord w = true) : decode w = .unknown w := by
  have nonzero : w ≠ 0x0000 := by
    rintro rfl
    exact absurd h (by decide)
  refine decode_of_not_covered nonzero fun r hr hc => ?_
  rw [isUnknownWord_eq_false_of_covers hr hc] at h
  contradiction

/-! ### The round trip -/

/-- One lemma for each form of row; a row without fields is a single word. -/
theorem decode_encode {i : Instr} (hi : i.wellFormed = true) : decode (encode i) = i := by
  cases i with
  | halt | cls | ret => rfl
  | jp nnn | call nnn | ldI nnn | jpV0 nnn => exact decode_place_nnn nnn
  | seImm x kk | sneImm x kk | ldImm x kk | addImm x kk | rnd x kk => exact decode_place_x_kk x kk
  | seReg x y | ldReg x y | orReg x y | andReg x y | xorReg x y | addReg x y | subReg x y | shr x y
  | subn x y | shl x y | sneReg x y => exact decode_place_x_y x y
  | drw x y n => exact decode_encode_drw x y n
  | skp x | sknp x | ldVxDt x | ldVxK x | ldDtVx x | ldStVx x | addIVx x | ldFVx x | ldBVx x
  | ldMemVx x | ldVxMem x => exact decode_place_x x
  | unknown w => exact decode_of_isUnknownWord hi

/-! ### Bytes (R47, R71) -/

theorem decodeBytes_wordBytes_append (w : Word) (rest : List Byte) :
    decodeBytes (wordBytes w ++ rest) = .ok (decode w, rest) := by
  show Except.ok (decode (bytesWord (w.extractLsb' 8 8) (w.extractLsb' 0 8)), rest) = _
  rw [bytesWord_of_bytes]

theorem decodeBytes_of_length_lt_two : ∀ bs : List Byte, bs.length < 2 →
    decodeBytes bs = .error .truncated
  | [], _ => rfl
  | [_], _ => rfl
  | _ :: _ :: _, h => absurd h (by simp)

/-- Settles O6: the decoder matches on the first two bytes alone, and on the two bytes of a word it is
`decode` of that word, which undoes `encode`. -/
theorem decoderConsumesTwoBytes : Obligations.DecoderConsumesTwoBytes := by
  refine ⟨fun hi lo rest => ⟨decode (bytesWord hi lo), rfl⟩, decodeBytes_of_length_lt_two, ?_⟩
  intro i rest hi
  rw [encodeBytes, decodeBytes_wordBytes_append, decode_encode hi]

end Sys2Proof
end

section
/-! The decoder as R66 states it, without an order of the rows (30_encoding.md). -/

namespace Sys2Proof

/-- No row covers the halt word (R64): every match value has a bit set. -/
theorem ne_zero_of_covers {r : Row} (hr : r ∈ opcodeRows) {w : Word} (h : w &&& r.mask = r.bits) :
    w ≠ 0x0000 := by
  rintro rfl
  have bits_zero : r.bits = 0 := h.symm.trans BitVec.zero_and
  exact opcodeRows_bits_ne_zero r hr bits_zero

/-- Settles O5: the rows do not overlap, so `decode` may be read by any row that covers the word; the
halt word is covered by none and comes first. -/
theorem decodeFollowsEveryRow : Obligations.DecodeFollowsEveryRow := by
  have zero_is_halt : decode 0x0000 = .halt := if_pos rfl
  exact ⟨zero_is_halt, fun _ _ hr h => ⟨ne_zero_of_covers hr h, decode_of_covers hr h⟩,
    fun _ h0 h => decode_of_not_covered h0 h⟩

end Sys2Proof
end

section
/-! An unknown word in the fetch-decode-execute cycle (40_cycle.md R83). -/

namespace Sys2Proof.Machine

theorem exec_unknown (w : Word) (s : State) : exec (.unknown w) s = .next s := rfl

/-- The zero word is the halt word (R64), outside the unknown space. -/
theorem ne_zero_of_isUnknownWord {w : Word} (h : isUnknownWord w = true) : w ≠ 0x0000 := by
  rintro rfl
  exact absurd h (by decide)

theorem step_of_fetches_unknown {s : State} {w : Word} (hf : Fetches s w)
    (hu : isUnknownWord w = true) : step s = .next (s.setPc (s.pc + 2)) := by
  rw [step_of_fetches s hf, decode_of_isUnknownWord hu, exec_unknown,
    afterFetch_of_ne_zero s (ne_zero_of_isUnknownWord hu)]

/-- A fetched instruction that leaves the core Running is reported by its descriptor alone. -/
theorem report_of_fetches_running {s t : State} {w : Word} (hf : Fetches s w)
    (hstep : step s = .next t) (ht : t.status = .running) :
    s.report = some (reportOf (decode w)) := by
  rw [report_of_fetches s hf, hstep]
  simp only [ht]

/-- Settles O14: the unknown word decodes to itself and is not the halt word, so the fetch advances
pc, the execute phase does nothing, and the core, still Running, reports the word. -/
theorem unknownWordIsANoOp : Obligations.UnknownWordIsANoOp := by
  refine ⟨exec_unknown, fun s w hf hu => ?_⟩
  have step_eq : step s = .next (s.setPc (s.pc + 2)) := step_of_fetches_unknown hf hu
  have report_eq : s.report = some (reportOf (decode w)) :=
    report_of_fetches_running hf step_eq hf.running
  rw [decode_of_isUnknownWord hu] at report_eq
  exact ⟨step_eq, report_eq⟩

end Sys2Proof.Machine
end

section
/-! The timer tick and the two read ports (60_exceptions.md R140, R143, R144). -/

namespace Sys2Proof.Machine

/-- The floor at zero of R140 is subtraction of natural numbers. -/
theorem tickDown_toNat (b : Byte) : (tickDown b).toNat = b.toNat - 1 := by
  unfold tickDown
  split
  case isTrue positive =>
    have one_le : (1 : Byte) ≤ b := BitVec.le_def.mpr positive
    exact BitVec.toNat_sub_of_le one_le
  case isFalse not_positive => omega

@[simp] theorem State.tickTimers_dt (s : State) : s.tickTimers.dt = tickDown s.dt := rfl
@[simp] theorem State.tickTimers_st (s : State) : s.tickTimers.st = tickDown s.st := rfl

/-- Settles O43: the tick writes DT and ST and no other field, each with its `tickDown`. -/
theorem tickTimersFloorsAtZero : Obligations.TickTimersFloorsAtZero := by
  intro s
  refine ⟨rfl, ?_, ?_⟩
  · rw [State.tickTimers_dt, tickDown_toNat]
  · rw [State.tickTimers_st, tickDown_toNat]

theorem State.soundActive_iff (s : State) : s.soundActive = true ↔ 0 < s.st.toNat :=
  decide_eq_true_iff

/-- Settles O46: `sound_active` decides ST > 0, `framebuffer` is the field, and the host's move for
either answers the state it was given. -/
theorem readPorts : Obligations.ReadPorts :=
  ⟨State.soundActive_iff, fun _ => rfl, fun _ => ⟨rfl, rfl⟩⟩

end Sys2Proof.Machine
end

section
/-! Encoding what the decoder reads, and the exact unknown space (30_encoding.md R63 to R69). A row's
descriptor keeps every bit that the row's mask does not fix, so the encoder gives the word back; and
R65's class table lists exactly the words that no row covers. -/

namespace Sys2Proof

/-- Settles O2: one lemma for each form of row, and for the unknown words. -/
theorem decodeEncodeRoundTrip : Obligations.DecodeEncodeRoundTrip :=
  fun _ hi => decode_encode hi

/-! ### No bit of a word is dropped (R67) -/

/-- What a row's descriptor is encoded as: the match value, and the word where the mask does not look. -/
theorem encode_descriptor (w : Word) :
    ∀ r ∈ opcodeRows, encode (r.descriptor w) = r.bits ||| (w &&& ~~~r.mask) := by
  intro r hr
  fin_cases hr <;>
    simp only [encode, placeX_fieldX, placeY_fieldY, placeN_fieldN, placeKK_fieldKK,
      placeNNN_fieldNNN, BitVec.or_assoc, ← BitVec.and_or_distrib_left] <;>
    simp

theorem encode_descriptor_of_covers {r : Row} (hr : r ∈ opcodeRows) {w : Word}
    (h : w &&& r.mask = r.bits) : encode (r.descriptor w) = w := by
  rw [encode_descriptor w r hr, ← h, ← BitVec.and_or_distrib_left, BitVec.or_not_self,
    BitVec.and_allOnes]

/-- A word is the halt word, or a row covers it, or none does (R66). -/
theorem decode_cases (w : Word) :
    w = 0x0000 ∨ (∃ r ∈ opcodeRows, w &&& r.mask = r.bits)
      ∨ (w ≠ 0x0000 ∧ ∀ r ∈ opcodeRows, w &&& r.mask ≠ r.bits) := by
  by_cases h0 : w = 0x0000
  · exact .inl h0
  · by_cases h : ∃ r ∈ opcodeRows, w &&& r.mask = r.bits
    · exact .inr (.inl h)
    · exact .inr (.inr ⟨h0, fun r hr hc => h ⟨r, hr, hc⟩⟩)

theorem encode_decode (w : Word) : encode (decode w) = w := by
  obtain rfl | ⟨r, hr, hc⟩ | ⟨h0, hn⟩ := decode_cases w
  · rfl
  · rw [decode_of_covers hr hc, encode_descriptor_of_covers hr hc]
  · rw [decode_of_not_covered h0 hn]
    rfl

/-- Settles O3: a covered word comes back from its row's fields; the halt word and the unknown words are
carried whole. -/
theorem encodeDecodeRoundTrip : Obligations.EncodeDecodeRoundTrip := encode_decode

/-- The decoder is injective: the encoder undoes it. -/
theorem eq_encode_of_decode_eq {w : Word} {i : Instr} (h : decode w = i) : w = encode i := by
  rw [← h, encode_decode]

/-- Settles O1: the decoder, run on each of the twelve words. -/
theorem decodeOfWrittenWords : Obligations.DecodeOfWrittenWords := by
  unfold Obligations.DecodeOfWrittenWords
  decide

/-! ### A word that R65 does not list is covered -/

section
variable {w : Word}

/-- The rows that test the class alone. -/
theorem exists_covering_of_class
    (row : ∃ r ∈ opcodeRows, r.mask = 0xF000
      ∧ r.bits = BitVec.ofNat 16 ((fieldClass w).val * 4096)) :
    ∃ r ∈ opcodeRows, w &&& r.mask = r.bits := by
  obtain ⟨r, hr, hm, hb⟩ := row
  exact ⟨r, hr, by rw [hm, hb]; exact (and_F000_eq_iff w (Fin.isLt _)).mpr rfl⟩

/-- The rows that test the class and n. -/
theorem exists_covering_of_class_n
    (row : ∃ r ∈ opcodeRows, r.mask = 0xF00F
      ∧ r.bits = BitVec.ofNat 16 ((fieldClass w).val * 4096 + (fieldN w).val)) :
    ∃ r ∈ opcodeRows, w &&& r.mask = r.bits := by
  obtain ⟨r, hr, hm, hb⟩ := row
  exact ⟨r, hr, by rw [hm, hb]; exact (and_F00F_eq_iff w (Fin.isLt _) (Fin.isLt _)).mpr ⟨rfl, rfl⟩⟩

/-- The rows that test the class and kk. -/
theorem exists_covering_of_class_kk
    (row : ∃ r ∈ opcodeRows, r.mask = 0xF0FF
      ∧ r.bits = BitVec.ofNat 16 ((fieldClass w).val * 4096 + (fieldKK w).toNat)) :
    ∃ r ∈ opcodeRows, w &&& r.mask = r.bits := by
  obtain ⟨r, hr, hm, hb⟩ := row
  exact ⟨r, hr, by rw [hm, hb]; exact (and_F0FF_eq_iff w (Fin.isLt _) (BitVec.isLt _)).mpr ⟨rfl, rfl⟩⟩

/-- Class by class, as R65's table goes. -/
theorem exists_covering_of_known (h0 : w ≠ 0x0000) (h : isUnknownWord w = false) :
    ∃ r ∈ opcodeRows, w &&& r.mask = r.bits := by
  unfold isUnknownWord at h
  split at h
  case h_1 =>
    have hw : w = 0x0000 ∨ w = 0x00E0 ∨ w = 0x00EE := by
      simpa only [Bool.not_eq_false', List.contains_iff_mem, List.mem_cons, List.not_mem_nil,
        or_false] using h
    obtain rfl | rfl | rfl := hw
    · contradiction
    · decide
    · decide
  case h_2 hc | h_3 hc | h_4 hc =>
    apply exists_covering_of_class_n
    rw [hc]
    generalize fieldN w = n at h
    revert n
    decide
  case h_5 hc | h_6 hc =>
    apply exists_covering_of_class_kk
    rw [hc]
    generalize fieldKK w = kk at h
    revert kk
    decide
  case h_7 =>
    apply exists_covering_of_class
    generalize fieldClass w = c at *
    revert c
    decide

end

/-! ### The unknown space is exact -/

theorem decode_wellFormed (w : Word) : (decode w).wellFormed = true := by
  obtain rfl | ⟨r, hr, hc⟩ | ⟨h0, hn⟩ := decode_cases w
  · rfl
  · rw [decode_of_covers hr hc]
    fin_cases hr <;> rfl
  · rw [decode_of_not_covered h0 hn]
    by_contra hu
    obtain ⟨r, hr, hc⟩ := exists_covering_of_known h0 (by simpa [Instr.wellFormed] using hu)
    exact hn r hr hc

theorem isUnknownWord_iff (w : Word) : isUnknownWord w = true ↔ decode w = .unknown w := by
  refine ⟨decode_of_isUnknownWord, fun h => ?_⟩
  have wf := decode_wellFormed w
  rwa [h] at wf

/-- Settles O4: a word that no row covers is in R65's table, since every other word of its class is
covered; and an unknown descriptor encodes to the word it came from. -/
theorem unknownSpaceIsExact : Obligations.UnknownSpaceIsExact := by
  have carries : ∀ w w', decode w = .unknown w' → w' = w :=
    fun _ _ h => (eq_encode_of_decode_eq h).symm
  exact ⟨decode_wellFormed, isUnknownWord_iff, carries⟩

end Sys2Proof
end

section
/-! The control steps of the cycle (40_cycle.md R75 to R81): a fetch that runs its instruction, the halt
word, an illegal fetch, the wait, and the interface's way to place a word. -/

namespace Sys2Proof.Machine

/-- Settles O7: a nonzero word is not the halt word, so the fetch has advanced pc. -/
theorem stepRunsDecodedInstruction : Obligations.StepRunsDecodedInstruction := by
  intro s w hf h0
  rw [step_of_fetches s hf, afterFetch_of_ne_zero s h0]
  rfl

/-! ### withFetchWord -/

theorem programBase_fetchLegal : fetchLegal programBase = true := by decide

/-- The two bytes of a word have two addresses, past the wrap too. -/
theorem mask12_ne_mask12_succ (p : Word) : mask12 p ≠ mask12 (p + 1) := by
  intro e
  have e' := congrArg BitVec.toNat e
  simp only [mask12, BitVec.toNat_setWidth, BitVec.toNat_add, show (1 : Word).toNat = 1 from rfl] at e'
  omega

/-- Placing a word at a legal pc: the two bytes, and Running. -/
theorem withFetchWord_of_legal (s : State) (nbits w : Nat) (h : fetchLegal s.pc = true) :
    s.withFetchWord nbits w
      = ((s.setStatus .running).writeMem (mask12 s.pc)
          ((BitVec.ofNat 16 (w % 2 ^ nbits)).extractLsb' 8 8)).writeMem (mask12 (s.pc + 1))
          ((BitVec.ofNat 16 (w % 2 ^ nbits)).extractLsb' 0 8) := by
  simp only [State.withFetchWord, h, if_true]
  rfl

/-- Placing a word at an illegal pc is placing it with pc moved to 0x200. -/
theorem withFetchWord_of_illegal (s : State) (nbits w : Nat) (h : fetchLegal s.pc = false) :
    s.withFetchWord nbits w = (s.setPc programBase).withFetchWord nbits w := by
  rw [withFetchWord_of_legal (s.setPc programBase) nbits w programBase_fetchLegal]
  simp only [State.withFetchWord, h]
  rfl

theorem fetches_withFetchWord_of_legal (s : State) (w : Word) (h : fetchLegal s.pc = true) :
    Fetches (s.withFetchWord 16 w.toNat) w := by
  have word_eq : BitVec.ofNat 16 (w.toNat % 2 ^ 16) = w := by
    rw [Nat.mod_eq_of_lt w.isLt, BitVec.ofNat_toNat, BitVec.setWidth_eq]
  rw [withFetchWord_of_legal s 16 w.toNat h, word_eq, fetches_iff]
  refine ⟨rfl, h, ?_⟩
  simp only [State.fetchWord, writeMem_pc, setStatus_pc]
  rw [readMem_writeMem_of_ne _ _ (mask12_ne_mask12_succ _), readMem_writeMem_same, readMem_writeMem_same]
  exact bytesWord_of_bytes w

/-- Settles O8: the word is fetched where it was placed, 0x200 standing in for an illegal pc; at a legal
one it is two writes to memory. -/
theorem withFetchWordIsFetched : Obligations.WithFetchWordIsFetched := by
  constructor
  · intro s w
    cases h : fetchLegal s.pc with
    | true => exact fetches_withFetchWord_of_legal s w h
    | false =>
      rw [withFetchWord_of_illegal s 16 w.toNat h]
      exact fetches_withFetchWord_of_legal _ w programBase_fetchLegal
  · intro s n w running even low high
    have legal : fetchLegal s.pc = true := (fetchLegal_iff s.pc).mpr ⟨even, low, high⟩
    refine ⟨_, withFetchWord_of_legal s n w legal, ?_, fun a ha => ?_⟩
    · simp only [State.writeMem, State.setStatus, ← running]
    · obtain ⟨hne, hne'⟩ : a ≠ mask12 s.pc ∧ a ≠ mask12 (s.pc + 1) := by simpa using ha
      rw [readMem_writeMem_of_ne _ _ hne', readMem_writeMem_of_ne _ _ hne, setStatus_readMem]

/-! ### The halt word (R81) -/

theorem exec_halt (s : State) : exec .halt s = .next s := rfl

theorem step_of_fetches_zero {s : State} (h : Fetches s 0x0000) : step s = .next s := by
  rw [step_of_fetches s h, decode_zero, exec_halt, afterFetch_zero]

/-- Settles O9: pc is not advanced over the halt word, so the step answers its own state. -/
theorem haltIsAFixedPoint : Obligations.HaltIsAFixedPoint := by
  refine ⟨exec_halt, fun s hf => ?_⟩
  have fixed : step s = .next s := step_of_fetches_zero hf
  have reported : s.report = some (reportOf (decode 0x0000)) :=
    report_of_fetches_running hf fixed hf.running
  exact ⟨reported, fixed, core_run_of_fixed (M := Sys2Proof.core) fixed⟩

/-! ### An illegal fetch (R78) -/

theorem report_of_badFetch {s : State} (hr : s.status = .running) (hl : fetchLegal s.pc = false) :
    s.report = some (.fatal .fetchOutOfRange) := by
  simp [State.report, hr, hl]

/-- Settles O10: each of the three ways makes the fetch illegal. -/
theorem badFetchIsFatal : Obligations.BadFetchIsFatal := by
  intro s running bad
  have illegal : fetchLegal s.pc = false := by
    rw [Bool.eq_false_iff, ne_eq, fetchLegal_iff]
    omega
  exact ⟨report_of_badFetch running illegal, step_of_badFetch s running illegal⟩

/-! ### The wait (R76, R77) -/

section
variable {s : State} {x : RegIdx}

theorem stepWaiting_of_no_latch (hl : s.latchedKey = none) : s.stepWaiting x = s := by
  simp [State.stepWaiting, hl]

theorem stepWaiting_of_latch {k : KeyIdx} (hl : s.latchedKey = some k) :
    s.stepWaiting x
      = ((s.writeV x (BitVec.ofNat 8 k.val)).setStatus .running).setLatch none := by
  simp [State.stepWaiting, hl]

theorem report_of_waiting_no_latch (hs : s.status = .waiting x) (hl : s.latchedKey = none) :
    s.report = some (.waiting x) := by
  simp [State.report, hs, hl]

theorem report_of_waiting_latch {k : KeyIdx} (hs : s.status = .waiting x)
    (hl : s.latchedKey = some k) : s.report = some (.executed (.ldVxK x)) := by
  simp [State.report, hs, hl]

end

/-- Settles O12: with nothing latched the waiting step answers its own state. -/
theorem waitingWithoutKeyChangesNothing : Obligations.WaitingWithoutKeyChangesNothing := by
  intro s x hs hl
  refine ⟨?_, report_of_waiting_no_latch hs hl⟩
  rw [step_of_waiting s hs, stepWaiting_of_no_latch hl]

/-- The number of a key fits a register. -/
theorem keyByte_toNat (k : KeyIdx) : (BitVec.ofNat 8 k.val).toNat = k.val := by
  rw [BitVec.toNat_ofNat]
  omega

/-- Settles O13: the completing step is one register write, the status and the latch. -/
theorem waitingWithKeyCompletes : Obligations.WaitingWithKeyCompletes := by
  intro s x k hs hl
  refine ⟨report_of_waiting_latch hs hl, _, step_of_waiting s hs, ?_⟩
  rw [stepWaiting_of_latch hl]
  obtain ⟨sameV, _⟩ := writeV_frame s x (BitVec.ofNat 8 k.val)
  refine ⟨?_, rfl, rfl, sameV, fun _ _ => rfl, rfl⟩
  rw [setLatch_readV, setStatus_readV, readV_writeV_same, keyByte_toNat]

end Sys2Proof.Machine
end

section
/-! What the execute phase can do, said once for all instructions: which fatal error it enters when
(60_exceptions.md R127), and which fields it writes (00_scope.md R11). -/

namespace Sys2Proof.Machine

/-! ### CALL and RET on a stack with room, and on a live one (10_state.md R27) -/

theorem exec_call_of_room {s : State} {j : Fin 16} (nnn : Addr) (h : s.sp.val = j.val) :
    exec (.call nnn) s
      = .next { s with pc := zextAddr nnn, stack := s.stack.set j.val s.pc, sp := j.succ } := by
  simp [exec, execCall, State.push, State.setPc, h, Fin.succ]

theorem exec_ret_of_live {s : State} {j : Fin 16} (h : s.sp.val = j.val + 1) :
    exec .ret s = .next { s with pc := s.stackAt j, sp := j.castSucc } := by
  simp [exec, execRet, State.pop, State.setPc, State.stackAt, h, Fin.castSucc, Fin.castAdd,
    Fin.castLE]

/-! ### The fatal errors of the execute phase -/

/-- The instruction `i` raises the fatal error `e` in the state `s` (R129, R130, R133). -/
inductive Raises (s : State) : Instr → Fault → Prop
  | call (nnn : Addr) (full : s.sp.val = 16) : Raises s (.call nnn) .stackOverflow
  | ret (empty : s.sp.val = 0) : Raises s .ret .stackUnderflow
  | skp (x : RegIdx) (large : 15 < (s.readV x).toNat) : Raises s (.skp x) .keyIndexOutOfRange
  | sknp (x : RegIdx) (large : 15 < (s.readV x).toNat) : Raises s (.sknp x) .keyIndexOutOfRange

theorem exec_of_raises {s : State} {i : Instr} {e : Fault} (h : Raises s i e) :
    exec i s = .next (s.raiseFatal e) := by
  cases h with
  | call nnn full => simp [exec, execCall, push_of_full s _ full]
  | ret empty => simp [exec, execRet, pop_of_empty s empty]
  | skp x large => simp [exec, execSkp, keyNumber_of_large large]
  | sknp x large => simp [exec, execSknp, keyNumber_of_large large]

/-- What raises is read off SP and the registers alone. -/
theorem Raises.congr {s t : State} {i : Instr} {e : Fault} (h : Raises s i e) (sp : t.sp = s.sp)
    (v : t.v = s.v) : Raises t i e := by
  have readV : ∀ x, t.readV x = s.readV x := fun x => by rw [State.readV, v, State.readV]
  cases h with
  | call nnn full => exact .call nnn (by rw [sp, full])
  | ret empty => exact .ret (by rw [sp, empty])
  | skp x large => exact .skp x (by rwa [readV])
  | sknp x large => exact .sknp x (by rwa [readV])

/-- A fetched instruction runs with pc advanced (40_cycle.md R80). -/
theorem step_of_decode {s : State} {w : Word} {i : Instr} (hf : Fetches s w) (hd : decode w = i)
    (hi : i ≠ .halt) : step s = exec i (s.setPc (s.pc + 2)) := by
  have nonzero : w ≠ 0x0000 := by
    rintro rfl
    exact hi hd.symm
  rw [step_of_fetches s hf, afterFetch_of_ne_zero s nonzero, hd]

/-- A step that raises is undone but for the status (40_cycle.md R84). -/
theorem step_of_raises {s : State} {w : Word} {i : Instr} {e : Fault} (hf : Fetches s w)
    (hd : decode w = i) (h : Raises s i e) : step s = .next (s.enterFault e) := by
  have not_halt : i ≠ .halt := by
    rintro rfl
    nomatch h
  have raises : Raises (s.setPc (s.pc + 2)) i e := h.congr rfl rfl
  rw [step_of_decode hf hd not_halt, exec_of_raises raises, raiseFatal_afterAdvance]

/-! ### The fields an instruction writes -/

/-- What the execute phase of an instruction at `s` can answer, by the fields written. `flow` and `index`
carry how large the new pc and I can be, `memory` that the canonical form is kept, and `registers` and
`display` that only the registers of `writesReg` change. -/
inductive Effect (s : State) : Instr → State → Prop
  | registers (i : Instr) (v : Vector Byte 16) (draws : Nat)
      (named : ∀ r : RegIdx, writesReg i r = false → v[r.val] = s.readV r) :
      Effect s i { s with v := v, rngDraws := draws }
  | flow (i : Instr) (p : Word) (near : p = s.pc ∨ p = s.pc + 2 ∨ p.toNat ≤ 0x10FE) :
      Effect s i (s.setPc p)
  | call (nnn : Addr) (j : Fin 16) (room : s.sp.val = j.val) :
      Effect s (.call nnn)
        { s with pc := zextAddr nnn, stack := s.stack.set j.val s.pc, sp := j.succ }
  | ret (j : Fin 16) (live : s.sp.val = j.val + 1) :
      Effect s .ret { s with pc := s.stackAt j, sp := j.castSucc }
  | index (i : Instr) (a : Word)
      (writer : (∃ nnn, i = .ldI nnn) ∨ (∃ x, i = .addIVx x) ∨ (∃ x, i = .ldFVx x))
      (small : s.cfg.wf → a.toNat ≤ 0xFFF) : Effect s i (s.setI a)
  | memory (i : Instr) (m : Memory) (writer : ∃ x, i = .ldBVx x ∨ i = .ldMemVx x)
      (wf : Memory.wf (resetByte s.cfg) s.mem → Memory.wf (resetByte s.cfg) m) :
      Effect s i { s with mem := m }
  | display (i : Instr) (v : Vector Byte 16) (fb : Framebuffer)
      (writer : i = .cls ∨ ∃ x y n, i = .drw x y n)
      (named : ∀ r : RegIdx, writesReg i r = false → v[r.val] = s.readV r) :
      Effect s i { s with v := v, fb := fb }
  | delay (x : RegIdx) (b : Byte) : Effect s (.ldDtVx x) (s.setDt b)
  | sound (x : RegIdx) (b : Byte) : Effect s (.ldStVx x) (s.setSt b)
  | wait (x : RegIdx) : Effect s (.ldVxK x) ((s.setStatus (.waiting x)).setLatch none)
  | fatal (i : Instr) (e : Fault) (raises : Raises s i e) : Effect s i (s.raiseFatal e)

section
variable {s : State} {i : Instr}

/-- No register and no other field written. -/
theorem Effect.nothing : Effect s i s :=
  .registers i s.v s.rngDraws fun _ _ => rfl

/-- One register written, the one named. -/
theorem Effect.writeV {x : RegIdx} {b : Byte} (hx : writesReg i x = true) :
    Effect s i (s.writeV x b) := by
  refine .registers i _ s.rngDraws fun r hr => readV_writeV_of_ne s b ?_
  rintro rfl
  exact absurd (hx.symm.trans hr) (by decide)

/-- A result and its flag written. -/
theorem Effect.writeVFlag {x : RegIdx} {b f : Byte} (hx : writesReg i x = true)
    (hf : writesReg i 15 = true) : Effect s i (s.writeVFlag x b f) := by
  refine .registers i _ s.rngDraws fun r hr => writeVFlag_readV_of_ne s b f ?_ ?_
  · rintro rfl
    exact absurd (hx.symm.trans hr) (by decide)
  · rintro rfl
    exact absurd (hf.symm.trans hr) (by decide)

theorem Effect.skipIf {c : Bool} : Effect s i (s.skipIf c) := by
  rw [skipIf_eq_setPc]
  refine .flow i _ ?_
  cases c
  · exact .inl rfl
  · exact .inr (.inl rfl)

end

/-! ### Bounds on the new pc and I -/

theorem zextAddr_toNat (a : Addr) : (zextAddr a).toNat = a.toNat := by
  have := a.isLt
  rw [zextAddr, BitVec.toNat_setWidth]
  omega

theorem zextByte_toNat (b : Byte) : (zextByte b).toNat = b.toNat := by
  have := b.isLt
  rw [zextByte, BitVec.toNat_setWidth]
  omega

/-- The target of JP V0 does not wrap: it is at most 0xFFF + 0xFF (R96). -/
theorem jpV0_target_toNat (nnn : Addr) (b : Byte) :
    (zextAddr nnn + zextByte b).toNat = nnn.toNat + b.toNat := by
  have := nnn.isLt
  have := b.isLt
  rw [BitVec.toNat_add, zextAddr_toNat, zextByte_toNat]
  omega

theorem glyphAddr_toNat (base : Word) (v : Byte) :
    (glyphAddr base v).toNat = (base.toNat + 5 * (v.toNat % 16)) % 65536 := by
  rw [glyphAddr, BitVec.toNat_add, BitVec.toNat_mul, zextByte_toNat, low_nibble,
    show (5 : Word).toNat = 5 from rfl]
  omega

/-! ### Every instruction -/

/-- Storing the three digits writes memory alone and keeps its canonical form. -/
theorem effect_ldBVx (s : State) (x : RegIdx) :
    ∃ t, exec (.ldBVx x) s = .next t ∧ Effect s (.ldBVx x) t :=
  ⟨_, rfl, .memory _ _ ⟨x, .inl rfl⟩ fun h =>
    Memory.wf_write (Memory.wf_write (Memory.wf_write h (BitVec.isLt _)) (BitVec.isLt _))
      (BitVec.isLt _)⟩

theorem effect_ldMemVx (s : State) (x : RegIdx) :
    ∃ t, exec (.ldMemVx x) s = .next t ∧ Effect s (.ldMemVx x) t := by
  refine ⟨_, rfl, ?_⟩
  rw [storeRegs_eq]
  exact .memory _ _ ⟨x, .inr rfl⟩ (storeRegs_keeps_wf s _)

theorem effect_ldVxMem (s : State) (x : RegIdx) :
    ∃ t, exec (.ldVxMem x) s = .next t ∧ Effect s (.ldVxMem x) t := by
  refine ⟨_, rfl, ?_⟩
  rw [loadRegs_eq]
  refine .registers _ _ s.rngDraws fun r hr => ?_
  have above : ¬ r.val < x.val + 1 := by
    have : ¬ r.val ≤ x.val := of_decide_eq_false hr
    omega
  exact (loadRegs_readV s (by omega) r).trans (if_neg above)

theorem effect_drw (s : State) (x y : RegIdx) (n : Fin 16) :
    ∃ t, exec (.drw x y n) s = .next t ∧ Effect s (.drw x y n) t :=
  ⟨_, rfl, .display _ _ _ (.inr ⟨x, y, n, rfl⟩) fun r hr =>
    readV_writeV_of_ne s _ (by simpa [writesReg] using hr)⟩

theorem effect_call (s : State) (nnn : Addr) :
    ∃ t, exec (.call nnn) s = .next t ∧ Effect s (.call nnn) t := by
  by_cases h : s.sp.val = 16
  · exact ⟨_, exec_of_raises (.call nnn h), .fatal _ _ (.call nnn h)⟩
  · have room : s.sp.val = (⟨s.sp.val, by omega⟩ : Fin 16).val := rfl
    exact ⟨_, exec_call_of_room nnn room, .call nnn _ room⟩

theorem effect_ret (s : State) : ∃ t, exec .ret s = .next t ∧ Effect s .ret t := by
  by_cases h : s.sp.val = 0
  · exact ⟨_, exec_of_raises (.ret h), .fatal _ _ (.ret h)⟩
  · have live : s.sp.val = (⟨s.sp.val - 1, by omega⟩ : Fin 16).val + 1 := by simp only; omega
    exact ⟨_, exec_ret_of_live live, .ret _ live⟩

theorem effect_skip_on_key (s : State) (x : RegIdx) :
    (∃ t, exec (.skp x) s = .next t ∧ Effect s (.skp x) t)
      ∧ ∃ t, exec (.sknp x) s = .next t ∧ Effect s (.sknp x) t := by
  obtain ⟨k, _, skp, sknp⟩ | ⟨large, skp, sknp⟩ := execSkp_cases s x
  · exact ⟨⟨_, skp, .skipIf⟩, _, sknp, .skipIf⟩
  · exact ⟨⟨_, skp, .fatal _ _ (.skp x large)⟩, _, sknp, .fatal _ _ (.sknp x large)⟩

/-- The execute phase of every instruction answers a next state, and this is all it can have done. -/
theorem exec_effect (i : Instr) (s : State) : ∃ t, exec i s = .next t ∧ Effect s i t := by
  cases i with
  | halt | unknown w => exact ⟨s, rfl, .nothing⟩
  | cls => exact ⟨_, rfl, .display _ s.v _ (.inl rfl) fun _ _ => rfl⟩
  | ret => exact effect_ret s
  | call nnn => exact effect_call s nnn
  | jp nnn =>
    have bound := nnn.isLt
    exact ⟨_, rfl, .flow _ _ (.inr (.inr (by rw [zextAddr_toNat]; omega)))⟩
  | jpV0 nnn =>
    have bound := nnn.isLt
    have bound' := (s.readV 0).isLt
    exact ⟨_, rfl, .flow _ _ (.inr (.inr (by rw [jpV0_target_toNat]; omega)))⟩
  | seImm x kk | sneImm x kk => exact ⟨_, rfl, .skipIf⟩
  | seReg x y | sneReg x y => exact ⟨_, rfl, .skipIf⟩
  | skp x => exact (effect_skip_on_key s x).1
  | sknp x => exact (effect_skip_on_key s x).2
  | ldImm x kk | addImm x kk => exact ⟨_, rfl, .writeV (beq_self_eq_true x)⟩
  | ldReg x y | orReg x y | andReg x y | xorReg x y =>
    exact ⟨_, rfl, .writeV (beq_self_eq_true x)⟩
  | ldVxDt x => exact ⟨_, rfl, .writeV (beq_self_eq_true x)⟩
  | addReg x y | subReg x y | shr x y | subn x y | shl x y =>
    exact ⟨_, rfl, .writeVFlag (by simp [writesReg]) (by simp [writesReg])⟩
  | rnd x kk =>
    exact ⟨_, rfl, .registers _ _ _ fun r hr =>
      readV_writeV_of_ne s _ (by simpa [writesReg] using hr)⟩
  | ldI nnn =>
    have bound := nnn.isLt
    exact ⟨_, rfl, .index _ _ (.inl ⟨nnn, rfl⟩) fun _ => by rw [zextAddr_toNat]; omega⟩
  | addIVx x =>
    exact ⟨_, rfl, .index _ _ (.inr (.inl ⟨x, rfl⟩)) fun _ => by
      have bound := (mask12 (s.i + zextByte (s.readV x))).isLt
      rw [zextAddr_toNat]
      omega⟩
  | ldFVx x =>
    exact ⟨_, rfl, .index _ _ (.inr (.inr ⟨x, rfl⟩)) fun wf => by
      have bound := Nat.mod_le (s.cfg.fontBase.toNat + 5 * ((s.readV x).toNat % 16)) 65536
      rw [glyphAddr_toNat]
      omega⟩
  | ldBVx x => exact effect_ldBVx s x
  | ldMemVx x => exact effect_ldMemVx s x
  | ldVxMem x => exact effect_ldVxMem s x
  | drw x y n => exact effect_drw s x y n
  | ldDtVx x => exact ⟨_, rfl, .delay x _⟩
  | ldStVx x => exact ⟨_, rfl, .sound x _⟩
  | ldVxK x => exact ⟨_, rfl, .wait x⟩

theorem effect_of_exec {i : Instr} {s t : State} (h : exec i s = .next t) : Effect s i t := by
  obtain ⟨t', h', effect⟩ := exec_effect i s
  cases h.symm.trans h'
  exact effect

/-- Settles O52: the answer of `exec` is one of the effects. -/
theorem everyInstructionRunsInEveryState : Obligations.EveryInstructionRunsInEveryState := by
  intro i s
  obtain ⟨t, h, _⟩ := exec_effect i s
  exact ⟨t, h⟩

/-- Settles O53: the effects that write registers write only those named. -/
theorem onlyNamedRegistersChange : Obligations.OnlyNamedRegistersChange := by
  intro i s t r h hr
  cases effect_of_exec h with
  | registers _ v draws named => exact named r hr
  | display _ v fb writer named => exact named r hr
  | _ => rfl

end Sys2Proof.Machine
end

section
/-! Fatal errors, what a step reports, and which step can write which field (40_cycle.md R74 to R86,
60_exceptions.md R127 to R136): all read off `Effect`. -/

namespace Sys2Proof.Machine

/-! ### What each effect leaves alone -/

section
variable {s t : State} {i : Instr} (h : Effect s i t)
include h

theorem Effect.key_eq : t.key = s.key := by
  cases h <;> rfl

theorem Effect.cfg_eq : t.cfg = s.cfg := by
  cases h <;> rfl

theorem Effect.index_writer (hne : t.i ≠ s.i) :
    (∃ nnn, i = .ldI nnn) ∨ (∃ x, i = .addIVx x) ∨ (∃ x, i = .ldFVx x) := by
  cases h with
  | index _ a writer small => exact writer
  | _ => exact absurd rfl hne

theorem Effect.stack_writer (hne : t.stack ≠ s.stack) : ∃ nnn, i = .call nnn := by
  cases h with
  | call nnn j room => exact ⟨nnn, rfl⟩
  | _ => exact absurd rfl hne

theorem Effect.sp_writer (hne : t.sp ≠ s.sp) : (∃ nnn, i = .call nnn) ∨ i = .ret := by
  cases h with
  | call nnn j room => exact .inl ⟨nnn, rfl⟩
  | ret j live => exact .inr rfl
  | _ => exact absurd rfl hne

theorem Effect.fb_writer (hne : t.fb ≠ s.fb) : i = .cls ∨ ∃ x y n, i = .drw x y n := by
  cases h with
  | display _ v fb writer named => exact writer
  | _ => exact absurd rfl hne

theorem Effect.mem_writer (hne : t.mem ≠ s.mem) : ∃ x, i = .ldBVx x ∨ i = .ldMemVx x := by
  cases h with
  | memory _ m writer wf => exact writer
  | _ => exact absurd rfl hne

theorem Effect.dt_writer (hne : t.dt ≠ s.dt) : ∃ x, i = .ldDtVx x := by
  cases h with
  | delay x b => exact ⟨x, rfl⟩
  | _ => exact absurd rfl hne

theorem Effect.st_writer (hne : t.st ≠ s.st) : ∃ x, i = .ldStVx x := by
  cases h with
  | sound x b => exact ⟨x, rfl⟩
  | _ => exact absurd rfl hne

/-- The status is kept, or LD Vx, K suspends, or a fatal error is entered. -/
theorem Effect.status_cases :
    t.status = s.status ∨ (∃ x, i = .ldVxK x ∧ t.status = .waiting x)
      ∨ (∃ e, t.status = .faulted e) := by
  cases h with
  | wait x => exact .inr (.inl ⟨x, rfl, rfl⟩)
  | fatal _ e raises => exact .inr (.inr ⟨e, rfl⟩)
  | _ => exact .inl rfl

/-- A core that was Running has failed only by an error that its instruction raises. -/
theorem Effect.raises_of_faulted {e : Fault} (hr : s.status = .running)
    (he : t.status = .faulted e) : Raises s i e ∧ t = s.raiseFatal e := by
  cases h with
  | fatal _ e' raises =>
    cases he
    exact ⟨raises, rfl⟩
  | wait x => nomatch he
  | _ => nomatch hr.symm.trans he

end

/-! ### Which step can write which field -/

/-- A step that runs no instruction writes V registers, the status and the latch at most. -/
theorem step_quiet_or_effect {s t : State} (h : step s = .next t) :
    t = { s with v := t.v, status := t.status, latchedKey := t.latchedKey }
    ∨ ∃ w, Fetches s w ∧ Effect (s.setPc (s.pc + 2)) (decode w) t := by
  obtain ⟨x, _, rfl⟩ | ⟨_, _, rfl⟩ | ⟨_, rfl⟩ | ⟨w, hf, _, he⟩ := step_cases s h
  · exact .inl (stepWaiting_eq s x)
  · exact .inl rfl
  · exact .inl rfl
  · exact .inr ⟨w, hf, effect_of_exec he⟩

/-- So a step that changes anything else runs an instruction. -/
theorem effect_of_step_ne {α : Type} {s t : State} (h : step s = .next t) (f : State → α)
    (quiet : ∀ v q l, f { s with v := v, status := q, latchedKey := l } = f s) (hne : f t ≠ f s) :
    ∃ w, Fetches s w ∧ Effect (s.setPc (s.pc + 2)) (decode w) t := by
  obtain same | effect := step_quiet_or_effect h
  · exact absurd ((congrArg f same).trans (quiet _ _ _)) hne
  · exact effect

/-- Settles O54: of the effects, `index` alone writes I, `call` alone the stack, `call` and `ret` SP. -/
theorem writersOfIndexAndStack : Obligations.WritersOfIndexAndStack := by
  intro s t h
  refine ⟨fun hne => ?_, fun hne => ?_, fun hne => ?_⟩
  · obtain ⟨w, hf, effect⟩ := effect_of_step_ne h State.i (fun _ _ _ => rfl) hne
    exact ⟨w, hf, effect.index_writer hne⟩
  · obtain ⟨w, hf, effect⟩ := effect_of_step_ne h State.stack (fun _ _ _ => rfl) hne
    obtain ⟨nnn, hi⟩ := effect.stack_writer hne
    exact ⟨w, nnn, hf, hi⟩
  · obtain ⟨w, hf, effect⟩ := effect_of_step_ne h State.sp (fun _ _ _ => rfl) hne
    exact ⟨w, hf, effect.sp_writer hne⟩

/-- Settles O55: of the effects, `display` alone writes the framebuffer and `memory` alone memory. -/
theorem writersOfFramebufferAndMemory : Obligations.WritersOfFramebufferAndMemory := by
  intro s t h
  refine ⟨fun hne => ?_, fun hne => ?_⟩
  · obtain ⟨w, hf, effect⟩ := effect_of_step_ne h State.fb (fun _ _ _ => rfl) hne
    exact ⟨w, hf, effect.fb_writer hne⟩
  · obtain ⟨w, hf, effect⟩ := effect_of_step_ne h State.mem (fun _ _ _ => rfl) hne
    obtain ⟨x, hi⟩ := effect.mem_writer hne
    exact ⟨w, x, hf, hi⟩

/-- Settles O56: no effect writes the keypad or the parameters; `delay` alone writes DT, `sound` ST. -/
theorem keypadAndTimersAreTheHosts : Obligations.KeypadAndTimersAreTheHosts := by
  intro s t h
  refine ⟨?_, ?_, fun hne => ?_, fun hne => ?_⟩
  · obtain same | ⟨w, _, effect⟩ := step_quiet_or_effect h
    · rw [same]
    · exact effect.key_eq
  · obtain same | ⟨w, _, effect⟩ := step_quiet_or_effect h
    · rw [same]
    · exact effect.cfg_eq
  · obtain ⟨w, hf, effect⟩ := effect_of_step_ne h State.dt (fun _ _ _ => rfl) hne
    obtain ⟨x, hi⟩ := effect.dt_writer hne
    exact ⟨w, x, hf, hi⟩
  · obtain ⟨w, hf, effect⟩ := effect_of_step_ne h State.st (fun _ _ _ => rfl) hne
    obtain ⟨x, hi⟩ := effect.st_writer hne
    exact ⟨w, x, hf, hi⟩

/-! ### Suspending and resuming -/

/-- Only LD Vx, K suspends a Running core. -/
theorem fetches_ldVxK_of_suspended {s t : State} {x : RegIdx} (h : step s = .next t)
    (hr : s.status = .running) (hx : t.status = .waiting x) :
    ∃ w, Fetches s w ∧ decode w = .ldVxK x := by
  obtain ⟨y, hy, _⟩ | ⟨_, _, rfl⟩ | ⟨_, rfl⟩ | ⟨w, hf, _, he⟩ := step_cases s h
  · nomatch hr.symm.trans hy
  · nomatch hx
  · nomatch hr.symm.trans hx
  · obtain same | ⟨y, hd, hy⟩ | ⟨e, he⟩ := (effect_of_exec he).status_cases
    · nomatch (hr.symm.trans same.symm).trans hx
    · cases hy.symm.trans hx
      exact ⟨w, hf, hd⟩
    · nomatch he.symm.trans hx

/-- Settles O57: the waiting step changes the status only by completing, which takes a latched key. -/
theorem onlyFx0ASuspends : Obligations.OnlyFx0ASuspends := by
  intro s t h
  refine ⟨fun x hr hx => fetches_ldVxK_of_suspended h hr hx, fun x hx hne => ?_⟩
  cases (step_of_waiting s hx).symm.trans h
  cases hl : s.latchedKey with
  | none => exact absurd (congrArg State.status (stepWaiting_of_no_latch hl)) hne
  | some k => exact ⟨congrArg State.status (stepWaiting_of_latch hl), Option.some_ne_none k⟩

/-! ### Which step enters which fatal error -/

theorem raises_iff {s : State} {i : Instr} {e : Fault} :
    Raises s i e ↔ (e = .stackOverflow ∧ s.sp.val = 16 ∧ ∃ nnn, i = .call nnn)
      ∨ (e = .stackUnderflow ∧ s.sp.val = 0 ∧ i = .ret)
      ∨ (e = .keyIndexOutOfRange ∧ ∃ x, 15 < (s.readV x).toNat ∧ (i = .skp x ∨ i = .sknp x)) := by
  constructor
  · intro h
    cases h with
    | call nnn full => exact .inl ⟨rfl, full, nnn, rfl⟩
    | ret empty => exact .inr (.inl ⟨rfl, empty, rfl⟩)
    | skp x large => exact .inr (.inr ⟨rfl, x, large, .inl rfl⟩)
    | sknp x large => exact .inr (.inr ⟨rfl, x, large, .inr rfl⟩)
  · rintro (⟨rfl, full, nnn, rfl⟩ | ⟨rfl, empty, rfl⟩ | ⟨rfl, x, large, rfl | rfl⟩)
    · exact .call nnn full
    · exact .ret empty
    · exact .skp x large
    · exact .sknp x large

/-- A fetched instruction that fails has raised its error, and the step is undone. -/
theorem raises_of_fetches {s t : State} {w : Word} {e : Fault} (hf : Fetches s w)
    (h : step s = .next t) (he : t.status = .faulted e) :
    Raises s (decode w) e ∧ t = s.enterFault e := by
  by_cases h0 : w = 0x0000
  · subst h0
    cases (step_of_fetches_zero hf).symm.trans h
    nomatch hf.running.symm.trans he
  · rw [step_of_fetches s hf, afterFetch_of_ne_zero s h0] at h
    obtain ⟨raises, ht⟩ := (effect_of_exec h).raises_of_faulted hf.running he
    exact ⟨raises.congr rfl rfl, ht.trans (raiseFatal_afterAdvance s e)⟩

/-- Settles O16: the status becomes Faulted exactly by an error that the instruction raises. -/
theorem fatalErrorConditions : Obligations.FatalErrorConditions := by
  intro s w e hf
  rw [← raises_iff]
  constructor
  · rintro ⟨t, h, he⟩
    exact (raises_of_fetches hf h he).1
  · exact fun raises => ⟨_, step_of_raises hf rfl raises, rfl⟩

/-! ### What a step reports -/

theorem report_of_fetches_faulted {s t : State} {w : Word} {e : Fault} (hf : Fetches s w)
    (h : step s = .next t) (he : t.status = .faulted e) : s.report = some (.fatal e) := by
  rw [report_of_fetches s hf, h]
  simp only [he]

theorem report_of_fetches_not_faulted {s t : State} {w : Word} (hf : Fetches s w)
    (h : step s = .next t) (hn : ∀ e, t.status ≠ .faulted e) :
    s.report = some (reportOf (decode w)) := by
  rw [report_of_fetches s hf, h]
  cases ht : t.status with
  | faulted e => exact absurd ht (hn e)
  | running | waiting x => simp only [ht]

theorem fetches_of_legal {s : State} (hr : s.status = .running) (hl : fetchLegal s.pc = true) :
    Fetches s s.fetchWord :=
  (fetches_iff s _).mpr ⟨hr, hl, rfl⟩

/-- Settles O15: the fetch check fails before anything has changed, and an instruction that raises is
undone. -/
theorem fatalErrorsArePrecise : Obligations.FatalErrorsArePrecise := by
  intro s t e hr h he
  cases hl : fetchLegal s.pc with
  | false =>
    cases (step_of_badFetch s hr hl).symm.trans h
    cases he
    exact ⟨rfl, report_of_badFetch hr hl⟩
  | true =>
    have hf : Fetches s s.fetchWord := fetches_of_legal hr hl
    exact ⟨(raises_of_fetches hf h he).2, report_of_fetches_faulted hf h he⟩

theorem reportOf_eq_executed {d : Instr} (hh : d ≠ .halt) (hu : ∀ w, d ≠ .unknown w) :
    reportOf d = .executed d := by
  unfold reportOf
  split
  · contradiction
  · exact absurd rfl (hu _)
  · rfl

theorem eq_halt_of_reportOf {d : Instr} (h : reportOf d = .halted) : d = .halt := by
  unfold reportOf at h
  split at h
  · rfl
  · nomatch h
  · nomatch h

theorem eq_zero_of_decode_halt {w : Word} (h : decode w = .halt) : w = 0x0000 :=
  eq_encode_of_decode_eq h

/-- Settles O18: only 0x0000 decodes to the halt word, and only unknown words to UNKNOWN. -/
theorem stepReportsTheDescriptor : Obligations.StepReportsTheDescriptor := by
  intro s t w hf h0 hu h hn
  rw [report_of_fetches_not_faulted hf h hn, reportOf_eq_executed]
  · exact fun hd => h0 (eq_zero_of_decode_halt hd)
  · intro w' hd
    cases eq_encode_of_decode_eq hd
    rw [(isUnknownWord_iff _).mpr hd] at hu
    contradiction

/-! ### The end of a run (R87) -/

theorem report_of_faulted {s : State} {e : Fault} (h : s.status = .faulted e) :
    s.report = some (.fatal e) := by
  simp [State.report, h]

theorem fetches_zero_of_halted {s : State} (h : s.halted) : Fetches s 0x0000 := by
  unfold State.halted at h
  cases hs : s.status with
  | faulted e => nomatch (report_of_faulted hs).symm.trans h
  | waiting x =>
    cases hl : s.latchedKey with
    | none => nomatch (report_of_waiting_no_latch hs hl).symm.trans h
    | some k => nomatch (report_of_waiting_latch hs hl).symm.trans h
  | running =>
    cases hl : fetchLegal s.pc with
    | false => nomatch (report_of_badFetch hs hl).symm.trans h
    | true =>
      have hf : Fetches s s.fetchWord := fetches_of_legal hs hl
      obtain ⟨t, ht, _⟩ := exec_effect (decode s.fetchWord) (s.afterFetch s.fetchWord)
      rw [← step_of_fetches s hf] at ht
      by_cases he : ∃ e, t.status = .faulted e
      · obtain ⟨e, he⟩ := he
        nomatch (report_of_fetches_faulted hf ht he).symm.trans h
      · have reported := report_of_fetches_not_faulted hf ht fun e h' => he ⟨e, h'⟩
        have halts := Option.some.inj (reported.symm.trans h)
        rwa [eq_zero_of_decode_halt (eq_halt_of_reportOf halts)] at hf

theorem resetByte_outside {cfg : Config} {a : Nat}
    (h : a < cfg.fontBase.toNat ∨ cfg.fontBase.toNat + 80 ≤ a) : resetByte cfg a = 0 :=
  dif_neg (by omega)

/-- The font lies below the first fetch (R7). -/
theorem init_fetches_zero {cfg : Config} (wf : cfg.wf) : Fetches (State.init cfg) 0x0000 where
  running := rfl
  even := by rw [init_pc]; decide
  low := by rw [init_pc]; decide
  high := by rw [init_pc]; decide
  word := by
    have zero : ∀ a : Addr, 0x200 ≤ a.toNat → (State.init cfg).readMem a = 0 := fun a ha =>
      resetByte_outside (.inr (le_trans wf ha))
    rw [init_pc, zero _ (by decide), zero _ (by decide)]
    rfl

/-- Settles O17: no other step reports Halted, since only 0x0000 decodes to the halt word. -/
theorem haltedExactlyAtZeroWord : Obligations.HaltedExactlyAtZeroWord := by
  have halted : ∀ s : State, s.halted ↔ Fetches s 0x0000 := fun s =>
    ⟨fetches_zero_of_halted, fun hf => (haltIsAFixedPoint.2 s hf).1⟩
  exact ⟨halted, fun cfg wf => (halted _).mpr (init_fetches_zero wf)⟩

/-! ### Faulted is permanent (R75, R136) -/

/-- Only a Faulted core answers no next state. -/
theorem step_total (s : State) :
    (∃ e, s.status = .faulted e ∧ step s = .fault e) ∨ ∃ t, step s = .next t := by
  cases hs : s.status with
  | faulted e => exact .inl ⟨e, rfl, step_of_faulted s hs⟩
  | waiting x => exact .inr ⟨_, step_of_waiting s hs⟩
  | running =>
    cases hl : fetchLegal s.pc with
    | false => exact .inr ⟨_, step_of_badFetch s hs hl⟩
    | true =>
      rw [step_of_fetches s (fetches_of_legal hs hl)]
      exact .inr (everyInstructionRunsInEveryState _ _)

theorem step_eq_fault_iff (s : State) (e : Fault) : step s = .fault e ↔ s.status = .faulted e := by
  refine ⟨fun h => ?_, step_of_faulted s⟩
  obtain ⟨e', he, h'⟩ | ⟨t, h'⟩ := step_total s
  · cases h'.symm.trans h
    exact he
  · nomatch h'.symm.trans h

theorem step_ne_refused (s : State) (r : Refusal) : step s ≠ .refused r := by
  intro h
  obtain ⟨e, _, h'⟩ | ⟨t, h'⟩ := step_total s
  · nomatch h'.symm.trans h
  · nomatch h'.symm.trans h

theorem act_step_of_faulted {s : State} {e : Fault} (h : s.status = .faulted e) :
    s.act .step = s := by
  simp [State.act, step_of_faulted s h]

/-- No move of the host writes the status. -/
theorem act_host_status (s : State) {a : Action} (h : a ≠ .step) : (s.act a).status = s.status := by
  rw [(act_host_eq s h).1]

theorem act_keeps_faulted {s : State} {e : Fault} (h : s.status = .faulted e) (a : Action) :
    (s.act a).status = .faulted e := by
  by_cases ha : a = .step
  · rw [ha, act_step_of_faulted h, h]
  · rw [act_host_status s ha, h]

/-- What every move keeps, every run keeps (R87). -/
theorem run_keeps {P : State → Prop} {s : State} {as : List Action}
    (keeps : ∀ s, P s → ∀ a ∈ as, P (s.act a)) (h : P s) : P (s.run as) :=
  List.foldlRecOn as State.act h keeps

/-- Settles O11: the step of a Faulted core is the identity, and no host move writes the status. -/
theorem faultedIsPermanent : Obligations.FaultedIsPermanent := by
  refine ⟨fun s e h => ?_, step_eq_fault_iff, step_ne_refused⟩
  have stays : ∀ as : List Action, (s.run as).status = .faulted e := fun as =>
    run_keeps (P := fun s => s.status = .faulted e) (fun _ hs a _ => act_keeps_faulted hs a) h
  exact ⟨act_step_of_faulted h, report_of_faulted h, fun as =>
    ⟨stays as, report_of_faulted (stays as)⟩⟩

end Sys2Proof.Machine
end

section
/-! The invariant of every reachable state (10_state.md sections 2 to 4 and 9): it holds at reset, every
step and every host operation keeps it. -/

namespace Sys2Proof.Machine

theorem init_inv {cfg : Config} (wf : cfg.wf) : (State.init cfg).Inv where
  config := wf
  memory := Memory.wf_nil
  index := Nat.zero_le _
  pcBound := by rw [init_pc]; decide
  returns := fun _ h => absurd h (Nat.not_lt_zero _)
  latch := fun h => absurd rfl h

/-- Settles O49: memory lists nothing, the stack is empty, and pc is 0x200. -/
theorem initialStateSatisfiesInvariant : Obligations.InitialStateSatisfiesInvariant :=
  ⟨init_inv (by decide), fun _ wf => init_inv wf⟩

/-! ### The parts that move -/

section
variable {s : State}

/-- The address after an instruction is what CALL may save (R80, R91). -/
theorem returnAddress_of_legal {p : Word} (h : fetchLegal p = true) : returnAddress (p + 2) := by
  obtain ⟨even, low, high⟩ := (fetchLegal_iff p).mp h
  have sum : (p + 2).toNat = p.toNat + 2 := by
    rw [BitVec.toNat_add, show (2 : Word).toNat = 2 from rfl]
    omega
  unfold returnAddress
  omega

/-- After a push the live entries are the old ones and the address pushed. -/
theorem returns_push {j k : Fin 16} (room : s.sp.val = j.val)
    (live : ∀ k : Fin 16, k.val < s.sp.val → returnAddress (s.stackAt k)) {a : Word}
    (ha : returnAddress a) (hk : k.val < j.val + 1) : returnAddress ((s.stack.set j.val a)[k.val]) := by
  rw [Vector.getElem_set]
  split
  case isTrue => exact ha
  case isFalse hne => exact live k (by omega)

/-- Nothing is latched in a Running core that meets the invariant. -/
theorem State.Inv.latch_of_running (hi : s.Inv) (hr : s.status = .running) : s.latchedKey = none := by
  by_contra hl
  obtain ⟨x, hx⟩ := hi.latch hl
  nomatch hr.symm.trans hx

end

/-! ### The execute phase -/

/-- From the state after a legal fetch, every effect keeps the invariant. -/
theorem Effect.keeps_inv {s t : State} {i : Instr} (h : Effect s i t) (hi : s.Inv)
    (hr : s.status = .running) (hpc : returnAddress s.pc) : t.Inv := by
  have ⟨_, low, high⟩ := hpc
  cases h with
  | registers _ v draws named => exact { hi with }
  | flow _ p near =>
    have bound : p.toNat ≤ 0x10FE := by
      rcases near with rfl | rfl | far
      · exact hi.pcBound
      · rw [BitVec.toNat_add, show (2 : Word).toNat = 2 from rfl]
        omega
      · exact far
    exact { hi with pcBound := bound }
  | call nnn j room =>
    have bound := nnn.isLt
    exact { hi with
      pcBound := by rw [zextAddr_toNat]; omega
      returns := fun k hk => returns_push room hi.returns hpc hk }
  | ret j live =>
    obtain ⟨_, _, bound⟩ := hi.returns j (by omega)
    exact { hi with
      pcBound := le_trans bound (by decide)
      returns := fun k hk => hi.returns k (live ▸ Nat.lt_succ_of_lt hk) }
  | index _ a writer small => exact { hi with index := small hi.config }
  | memory _ m writer wf => exact { hi with memory := wf hi.memory }
  | display _ v fb writer named => exact { hi with }
  | delay x b => exact { hi with }
  | sound x b => exact { hi with }
  | wait x => exact { hi with latch := fun hl => absurd rfl hl }
  | fatal _ e raises =>
    have bound : (s.pc - 2).toNat ≤ 0x10FE := by
      rw [BitVec.toNat_sub, show (2 : Word).toNat = 2 from rfl]
      omega
    exact { hi with
      pcBound := bound
      latch := fun hl => absurd (hi.latch_of_running hr) hl }

/-! ### The step -/

theorem stepWaiting_keeps_inv {s : State} (hi : s.Inv) (x : RegIdx) : (s.stepWaiting x).Inv := by
  cases hl : s.latchedKey with
  | none => rwa [stepWaiting_of_no_latch hl]
  | some k =>
    rw [stepWaiting_of_latch hl]
    exact { hi with latch := fun h => absurd rfl h }

theorem enterFault_keeps_inv {s : State} (hi : s.Inv) (hr : s.status = .running) (e : Fault) :
    (s.enterFault e).Inv :=
  { hi with latch := fun hl => absurd (hi.latch_of_running hr) hl }

theorem step_keeps_inv {s t : State} (hi : s.Inv) (h : step s = .next t) : t.Inv := by
  obtain ⟨x, _, rfl⟩ | ⟨hr, _, rfl⟩ | ⟨_, rfl⟩ | ⟨w, hf, _, he⟩ := step_cases s h
  · exact stepWaiting_keeps_inv hi x
  · exact enterFault_keeps_inv hi hr _
  · exact hi
  · obtain ⟨hr, legal, _⟩ := (fetches_iff s w).mp hf
    have ret := returnAddress_of_legal legal
    have ⟨_, _, high⟩ := ret
    have fetched : (s.setPc (s.pc + 2)).Inv := { hi with pcBound := le_trans high (by decide) }
    exact (effect_of_exec he).keeps_inv fetched hr ret

/-- Settles O50: a step that fetches an instruction sees a pc that is a return address, and from there
each effect keeps each part. -/
theorem stepKeepsInvariant : Obligations.StepKeepsInvariant :=
  fun _ _ hi h => step_keeps_inv hi h

/-! ### The host's moves -/

theorem setKey_keeps_inv {s : State} (hi : s.Inv) (k : KeyIdx) (p : Bool) : (s.setKey k p).Inv := by
  cases hl : s.latches k p with
  | false =>
    simp only [State.setKey, hl]
    exact { hi with }
  | true =>
    obtain ⟨suspended, _⟩ := (latches_iff s k p).mp hl
    simp only [State.setKey, hl, if_true]
    exact { hi with latch := fun _ => suspended }

section
variable (s : State) {bytes : List Byte}

theorem loadProgram_of_large (h : maxProgram < bytes.length) :
    s.loadProgram bytes = .error .programTooLarge := if_pos h

theorem loadProgram_of_fits (h : ¬ maxProgram < bytes.length) :
    s.loadProgram bytes = .ok (s.writeBytes programBase.toNat bytes) := if_neg h

theorem act_loadProgram_of_large (h : maxProgram < bytes.length) :
    s.act (.loadProgram bytes) = s := by
  simp only [State.act, loadProgram_of_large s h]

theorem act_loadProgram_of_fits (h : ¬ maxProgram < bytes.length) :
    s.act (.loadProgram bytes) = s.writeBytes programBase.toNat bytes := by
  simp only [State.act, loadProgram_of_fits s h]

end

theorem writeBytes_keeps_inv {s : State} (hi : s.Inv) (a : Nat) (bytes : List Byte) :
    (s.writeBytes a bytes).Inv := by
  have wf := writeBytes_keeps_wf s bytes a hi.memory
  rw [writeBytes_eq]
  exact { hi with memory := wf }

theorem act_keeps_inv {s : State} (hi : s.Inv) (a : Action) : (s.act a).Inv := by
  cases a with
  | step =>
    obtain ⟨e, he, _⟩ | ⟨t, ht⟩ := step_total s
    · rwa [act_step_of_faulted he]
    · simp only [State.act, ht]
      exact step_keeps_inv hi ht
  | tickTimers => exact { hi with }
  | setKey k p => exact setKey_keeps_inv hi k p
  | loadProgram bytes =>
    by_cases large : maxProgram < bytes.length
    · rwa [act_loadProgram_of_large s large]
    · rw [act_loadProgram_of_fits s large]
      exact writeBytes_keeps_inv hi _ bytes
  | framebuffer | soundActive => exact hi

/-- Settles O51: by induction on the moves. -/
theorem everyRunKeepsInvariant : Obligations.EveryRunKeepsInvariant :=
  fun _ _ hi => run_keeps (fun _ h a _ => act_keeps_inv h a) hi

end Sys2Proof.Machine
end

section
/-! Control transfer, instruction by instruction (41_flow.md R88 to R96), with the stack primitives
(10_state.md R27, R28) and the key skips (45_timers_keys.md R121, R122). -/

namespace Sys2Proof.Machine

/-- Settles O19: the laws of push and pop. -/
theorem stackPrimitives : Obligations.StackPrimitives :=
  ⟨push_of_full, push_of_room, pop_of_empty, pop_of_live⟩

theorem stack_set_same (s : State) (j : Fin 16) (a : Word) : (s.stack.set j.val a)[j.val] = a :=
  Vector.getElem_set_self _

theorem stack_set_of_ne (s : State) {j k : Fin 16} (a : Word) (h : k ≠ j) :
    (s.stack.set j.val a)[k.val] = s.stackAt k :=
  Vector.getElem_set_ne _ _ fun e => h (Fin.ext e.symm)

theorem decode_ret : decode 0x00EE = .ret := rfl

/-- Settles O20: RET on a live stack writes pc and SP; on an empty one it raises, and the step is
undone. -/
theorem retPopsPc : Obligations.RetPopsPc := by
  refine ⟨decode_ret, fun s j live => ?_, fun s hf empty => ?_⟩
  · exact ⟨_, exec_ret_of_live live, rfl, rfl, fun _ => rfl, fun _ _ => rfl, rfl, fun _ _ => rfl,
      fun _ _ => rfl, fun _ => rfl, rfl, rfl, rfl, rfl, rfl, rfl⟩
  · exact step_of_raises hf decode_ret (.ret empty)

/-- Settles O21: pc alone is set, to a target that does not wrap. -/
theorem jumpsSetPc : Obligations.JumpsSetPc := by
  refine ⟨fun nnn => ⟨decode_place_nnn nnn, decode_place_nnn nnn⟩, fun nnn s => ?_, fun nnn s => ?_⟩
  · exact ⟨_, rfl, zextAddr_toNat nnn, fun _ _ => rfl, rfl, fun _ _ => rfl, ⟨rfl, fun _ => rfl⟩,
      fun _ _ => rfl, fun _ => rfl, rfl, rfl, rfl, rfl, rfl, rfl⟩
  · exact ⟨_, rfl, jpV0_target_toNat nnn (s.readV 0), fun _ _ => rfl, rfl, fun _ _ => rfl,
      ⟨rfl, fun _ => rfl⟩, fun _ _ => rfl, fun _ => rfl, rfl, rfl, rfl, rfl, rfl, rfl⟩

/-- Settles O22: CALL with room writes pc, one entry and SP; on a full stack it raises, and the step is
undone. -/
theorem callPushesPc : Obligations.CallPushesPc := by
  refine ⟨fun nnn => decode_place_nnn nnn, fun nnn s j room => ?_, fun nnn s hf full => ?_⟩
  · exact ⟨_, exec_call_of_room nnn room, zextAddr_toNat nnn, rfl, stack_set_same s j s.pc,
      fun k hk => stack_set_of_ne s s.pc hk, fun _ _ => rfl, rfl,
      fun _ _ => rfl, fun _ _ => rfl, fun _ => rfl, rfl, rfl, rfl, rfl, rfl, rfl⟩
  · exact step_of_raises hf (decode_place_nnn nnn) (.call nnn full)

theorem step_of_fetches_call {s : State} {nnn : Addr} {j : Fin 16}
    (hf : Fetches s (0x2000 ||| placeNNN nnn)) (room : s.sp.val = j.val) :
    step s = .next { s with
      pc := zextAddr nnn, stack := s.stack.set j.val (s.pc + 2), sp := j.succ } := by
  rw [step_of_decode (i := .call nnn) hf (decode_place_nnn nnn) nofun]
  exact exec_call_of_room (s := s.setPc (s.pc + 2)) nnn room

theorem step_of_fetches_ret {s : State} {j : Fin 16} (hf : Fetches s 0x00EE)
    (live : s.sp.val = j.val + 1) :
    step s = .next { s with pc := s.stackAt j, sp := j.castSucc } := by
  rw [step_of_decode (i := .ret) hf decode_ret nofun]
  exact exec_ret_of_live (s := s.setPc (s.pc + 2)) live

/-- Settles O23: the RET pops the entry that the CALL pushed, the address after the CALL. -/
theorem callThenRetReturns : Obligations.CallThenRetReturns := by
  intro s nnn j hcall room hret
  have at_ret : Fetches { s with
      pc := zextAddr nnn, stack := s.stack.set j.val (s.pc + 2), sp := j.succ } 0x00EE :=
    ⟨hret.running, hret.even, hret.low, hret.high, hret.word⟩
  refine ⟨_, _, step_of_fetches_call hcall room, step_of_fetches_ret at_ret rfl, ?_⟩
  have popped := stack_set_same s j (s.pc + 2)
  have sp_back : j.castSucc = s.sp := Fin.ext room.symm
  refine ⟨popped, fun k hk => stack_set_of_ne s _ hk, ?_⟩
  simp only [State.stackAt, popped, sp_back]

/-- Settles O24: each is `skipIf` on its condition. -/
theorem skipsAddTwoToPc : Obligations.SkipsAddTwoToPc := by
  refine ⟨fun x kk => ⟨decode_place_x_kk x kk, decode_place_x_kk x kk⟩,
    fun x y => ⟨decode_place_x_y x y, decode_place_x_y x y⟩, ?_, ?_, ?_, ?_⟩
  · exact fun x kk s => congrArg _ (skipIf_eq s beq_iff_eq)
  · exact fun x kk s => congrArg _ (skipIf_eq_unless s bne_iff_ne)
  · exact fun x y s => congrArg _ (skipIf_eq s beq_iff_eq)
  · exact fun x y s => congrArg _ (skipIf_eq_unless s bne_iff_ne)

theorem exec_skip_on_key {s : State} {x : RegIdx} {k : KeyIdx} (hk : (s.readV x).toNat = k.val) :
    exec (.skp x) s = .next (s.skipIf (s.keyAt k))
      ∧ exec (.sknp x) s = .next (s.skipIf (!s.keyAt k)) := by
  simp [exec, execSkp, execSknp, keyNumber_of_eq hk]

/-- Settles O39: a value that names a key makes a `skipIf`, any other raises. -/
theorem keySkips : Obligations.KeySkips := by
  refine ⟨fun x => ⟨decode_place_x x, decode_place_x x⟩, fun x k s hk => ?_, fun x s large hf => ?_⟩
  · obtain ⟨skp, sknp⟩ := exec_skip_on_key hk
    have up : (!s.keyAt k) = true ↔ ¬ s.keyAt k = true := by cases s.keyAt k <;> decide
    rw [skp, sknp, skipIf_eq s Iff.rfl, skipIf_eq_unless s up]
    exact ⟨rfl, rfl⟩
  · rcases hf with hf | hf
    · exact step_of_raises hf (decode_place_x x) (.skp x large)
    · exact step_of_raises hf (decode_place_x x) (.sknp x large)

end Sys2Proof.Machine
end

section
/-! Registers and arithmetic (42_alu.md R98 to R110), and the timer instructions (45_timers_keys.md R123
to R126): one register write, a write with its flag, or one field. -/

namespace Sys2Proof.Machine

/-! ### The flags as numbers (10_state.md R21) -/

theorem flagByte_toNat (p : Prop) [Decidable p] : (flagByte p).toNat = if p then 1 else 0 := by
  by_cases h : p <;> simp [flagByte, h]

theorem carryFlag_toNat (a b : Byte) :
    (carryFlag a b).toNat = if a.toNat + b.toNat > 255 then 1 else 0 :=
  flagByte_toNat _

theorem noBorrowFlag_toNat (a b : Byte) :
    (noBorrowFlag a b).toNat = if a.toNat ≥ b.toNat then 1 else 0 :=
  flagByte_toNat _

theorem lowBitFlag_toNat (a : Byte) : (lowBitFlag a).toNat = a.toNat % 2 := by
  revert a
  decide

theorem highBitFlag_toNat (a : Byte) : (highBitFlag a).toNat = a.toNat / 128 := by
  revert a
  decide

/-! ### The results as numbers -/

/-- The modulus of R106 and R108 is the mathematical one. -/
theorem sub_toNat_int (a b : Byte) : ((a - b).toNat : Int) = (a.toNat - b.toNat : Int) % 256 := by
  have := a.isLt
  have := b.isLt
  rw [BitVec.toNat_sub]
  omega

theorem shiftRight_one_toNat (a : Byte) : (a >>> 1).toNat = a.toNat / 2 := by
  rw [BitVec.toNat_ushiftRight, Nat.shiftRight_eq_div_pow]

theorem shiftLeft_one_toNat (a : Byte) : (a <<< 1).toNat = a.toNat * 2 % 256 := by
  rw [BitVec.toNat_shiftLeft, Nat.shiftLeft_eq]

/-! ### Loads and ADD Vx, kk -/

/-- Settles O25: each is one register write. -/
theorem loadsAndAddImmediate : Obligations.LoadsAndAddImmediate := by
  refine ⟨fun x kk => ⟨decode_place_x_kk x kk, decode_place_x_kk x kk⟩,
    fun x y => decode_place_x_y x y, fun x kk s => ?_, fun x kk s => ?_, fun x y s => ?_⟩
  · exact ⟨_, rfl, readV_writeV_same s x kk, writeV_frame s x kk⟩
  · refine ⟨_, rfl, ?_, writeV_frame s x _⟩
    rw [readV_writeV_same, BitVec.toNat_add]
  · exact ⟨_, rfl, readV_writeV_same s x _, writeV_frame s x _⟩

/-- Settles O26: each is one register write, of a bitwise value. -/
theorem logicIsBitwise : Obligations.LogicIsBitwise := by
  refine ⟨fun x y => ⟨decode_place_x_y x y, decode_place_x_y x y, decode_place_x_y x y⟩,
    fun x y s => ⟨_, rfl, fun j => ?_, writeV_frame s x _⟩,
    fun x y s => ⟨_, rfl, fun j => ?_, writeV_frame s x _⟩,
    fun x y s => ⟨_, rfl, fun j => ?_, writeV_frame s x _⟩⟩
  · rw [readV_writeV_same, BitVec.getLsbD_or]
  · rw [readV_writeV_same, BitVec.getLsbD_and]
  · rw [readV_writeV_same, BitVec.getLsbD_xor]

/-! ### Results with a flag -/

/-- Settles O27: a result and its flag, written last. -/
theorem addRegisterSetsCarry : Obligations.AddRegisterSetsCarry := by
  refine ⟨fun x y => decode_place_x_y x y, fun x y s => ⟨_, rfl, fun hx => ?_, ?_,
    writeVFlag_frame s x _ _⟩⟩
  · rw [writeVFlag_readV_result s _ _ hx, BitVec.toNat_add]
  · rw [writeVFlag_readV_flag, carryFlag_toNat]

/-- Settles O28: a result and its flag, written last, with the operands either way round. -/
theorem subtractSetsNoBorrow : Obligations.SubtractSetsNoBorrow := by
  refine ⟨fun x y => ⟨decode_place_x_y x y, decode_place_x_y x y⟩,
    fun x y s => ⟨_, rfl, fun hx => ?_, ?_, writeVFlag_frame s x _ _⟩,
    fun x y s => ⟨_, rfl, fun hx => ?_, ?_, writeVFlag_frame s x _ _⟩⟩
  · rw [writeVFlag_readV_result s _ _ hx, sub_toNat_int]
  · rw [writeVFlag_readV_flag, noBorrowFlag_toNat]
  · rw [writeVFlag_readV_result s _ _ hx, sub_toNat_int]
  · rw [writeVFlag_readV_flag, noBorrowFlag_toNat]

/-- Settles O29: a result and the bit shifted out, written last. -/
theorem shiftsMoveOneBit : Obligations.ShiftsMoveOneBit := by
  refine ⟨fun x y => ⟨decode_place_x_y x y, decode_place_x_y x y⟩,
    fun x y s => ⟨_, rfl, fun hx => ?_, ?_, writeVFlag_frame s x _ _⟩,
    fun x y s => ⟨_, rfl, fun hx => ?_, ?_, writeVFlag_frame s x _ _⟩⟩
  · rw [writeVFlag_readV_result s _ _ hx, shiftRight_one_toNat]
  · rw [writeVFlag_readV_flag, lowBitFlag_toNat]
  · rw [writeVFlag_readV_result s _ _ hx, shiftLeft_one_toNat]
  · rw [writeVFlag_readV_flag, highBitFlag_toNat]

/-! ### RND -/

theorem takeRandom_readV (s : State) (r : Byte) (x : RegIdx) (kk : Byte) :
    (s.takeRandom r x kk).readV x = r &&& kk :=
  readV_writeV_same s x _

/-- A byte with no bit outside `kk` is its own draw. -/
theorem and_eq_self_of_within {b kk : Byte} (h : b &&& ~~~kk = 0) : b &&& kk = b := by
  calc b &&& kk = (b &&& kk) ||| (b &&& ~~~kk) := by rw [h]; exact BitVec.or_zero.symm
    _ = b := by rw [← BitVec.and_or_distrib_left, BitVec.or_not_self, BitVec.and_allOnes]

/-- Settles O30: for every draw one register write; a byte within the mask is reached by drawing it. -/
theorem randomIsAnyByteWithinMask : Obligations.RandomIsAnyByteWithinMask := by
  refine ⟨fun x kk => decode_place_x_kk x kk, fun _ _ _ => rfl, fun r x kk s => ?_,
    fun x kk b s within => ?_⟩
  · obtain ⟨sameV, _⟩ := writeV_frame s x (r &&& kk)
    refine ⟨_, rfl, takeRandom_readV s r x kk, ?_, sameV, fun _ _ => rfl, rfl⟩
    rw [takeRandom_readV, BitVec.and_assoc, BitVec.and_not_self]
    exact BitVec.and_zero
  · exact ⟨b, by rw [takeRandom_readV, and_eq_self_of_within within]⟩

/-! ### Timers and the wait -/

/-- Settles O40: one register write, or one timer. -/
theorem timerMoves : Obligations.TimerMoves := by
  refine ⟨fun x => ⟨decode_place_x x, decode_place_x x, decode_place_x x⟩, fun x s => ?_,
    fun x s => ⟨_, rfl, rfl, fun _ _ => rfl⟩, fun x s => ⟨_, rfl, rfl, fun _ _ => rfl⟩⟩
  obtain ⟨sameV, _⟩ := writeV_frame s x s.dt
  exact ⟨_, rfl, readV_writeV_same s x _, sameV, fun _ _ => rfl, rfl⟩

/-- Settles O41: the status and the latch alone are written. -/
theorem waitForKeySuspends : Obligations.WaitForKeySuspends :=
  ⟨fun x => decode_place_x x, fun _ _ => ⟨_, rfl, rfl, fun _ _ => rfl, fun _ _ => rfl⟩⟩

end Sys2Proof.Machine
end

section
/-! The index register and memory transfer (43_index_memory.md R111 to R116). -/

namespace Sys2Proof.Machine

/-! ### The frames -/

/-- Writing I changes I alone. -/
theorem setI_frame (s : State) (a : Word) :
    SameV [] s (s.setI a) ∧ (s.setI a).pc = s.pc ∧ SameMem [] s (s.setI a)
      ∧ SameStack s (s.setI a) ∧ SameFb s (s.setI a) ∧ SameRest s (s.setI a) :=
  ⟨fun _ _ => rfl, rfl, fun _ _ => rfl, ⟨rfl, fun _ => rfl⟩, fun _ _ => rfl,
    ⟨fun _ => rfl, rfl, rfl, rfl, rfl, rfl, rfl⟩⟩

/-- Writing memory changes memory alone. -/
theorem withMem_frame (s : State) (m : Memory) :
    SameV [] s { s with mem := m } ∧ { s with mem := m }.i = s.i ∧ { s with mem := m }.pc = s.pc
      ∧ SameStack s { s with mem := m } ∧ SameFb s { s with mem := m }
      ∧ SameRest s { s with mem := m } :=
  ⟨fun _ _ => rfl, rfl, rfl, ⟨rfl, fun _ => rfl⟩, fun _ _ => rfl,
    ⟨fun _ => rfl, rfl, rfl, rfl, rfl, rfl, rfl⟩⟩

/-! ### The index register -/

/-- Settles O31: I alone is written. -/
theorem loadIndex : Obligations.LoadIndex :=
  ⟨fun nnn => decode_place_nnn nnn, fun nnn s => ⟨_, rfl, zextAddr_toNat nnn, setI_frame s _⟩⟩

/-- The 12-bit sum of R112. -/
theorem addIndex_toNat (i : Word) (b : Byte) :
    (zextAddr (mask12 (i + zextByte b))).toNat = (i.toNat + b.toNat) % 4096 := by
  rw [zextAddr_toNat, mask12, BitVec.toNat_setWidth, BitVec.toNat_add, zextByte_toNat]
  omega

/-- Settles O32: I alone is written, with the sum modulo 4096 or the glyph's address. -/
theorem indexArithmetic : Obligations.IndexArithmetic :=
  ⟨fun x => ⟨decode_place_x x, decode_place_x x⟩,
    fun x s => ⟨_, rfl, addIndex_toNat s.i (s.readV x), setI_frame s _⟩,
    fun x s => ⟨_, rfl, glyphAddr_toNat s.cfg.fontBase (s.readV x), setI_frame s _⟩⟩

/-! ### LD B, Vx -/

theorem hundreds_toNat (v : Byte) : (hundreds v).toNat = v.toNat / 100 := by
  have := v.isLt
  rw [hundreds, BitVec.toNat_ofNat]
  omega

theorem tens_toNat (v : Byte) : (tens v).toNat = v.toNat / 10 % 10 := by
  rw [tens, BitVec.toNat_ofNat]
  omega

theorem units_toNat (v : Byte) : (units v).toNat = v.toNat % 10 := by
  rw [units, BitVec.toNat_ofNat]
  omega

theorem dataAddr_ne {i : Word} {k k' : Nat} (hk : k < 4096) (hk' : k' < 4096) (h : k ≠ k') :
    dataAddr i k ≠ dataAddr i k' :=
  fun e => h (dataAddr_inj hk hk' e)

/-- Settles O33: three writes at three addresses. -/
theorem bcdStoresThreeDigits : Obligations.BcdStoresThreeDigits := by
  refine ⟨fun x => decode_place_x x, fun x s => ⟨_, rfl, ?_, ?_, ?_, fun a ha => ?_,
    withMem_frame s _⟩⟩
  · rw [readMem_writeMem_of_ne _ _ (dataAddr_ne (by decide) (by decide) (by decide)),
      readMem_writeMem_of_ne _ _ (dataAddr_ne (by decide) (by decide) (by decide)),
      readMem_writeMem_same, hundreds_toNat]
  · rw [readMem_writeMem_of_ne _ _ (dataAddr_ne (by decide) (by decide) (by decide)),
      readMem_writeMem_same, tens_toNat]
  · rw [readMem_writeMem_same, units_toNat]
  · obtain ⟨h0, h1, h2⟩ : a ≠ dataAddr s.i 0 ∧ a ≠ dataAddr s.i 1 ∧ a ≠ dataAddr s.i 2 := by
      simpa using ha
    rw [readMem_writeMem_of_ne _ _ h2, readMem_writeMem_of_ne _ _ h1, readMem_writeMem_of_ne _ _ h0]

/-! ### Storing and loading registers -/

theorem finOfNat_val (k : RegIdx) : Fin.ofNat 16 k.val = k := Fin.ext (Nat.mod_eq_of_lt k.isLt)

/-- Settles O34: the loop writes memory alone, V[k] at the k-th data address. -/
theorem storeRegistersAtIndex : Obligations.StoreRegistersAtIndex := by
  refine ⟨fun x => decode_place_x x, fun x s => ⟨_, rfl, fun k hk => ?_, fun a ha => ?_, ?_⟩⟩
  · rw [storeRegs_readMem_same s (by omega) (Nat.lt_succ_of_le hk), finOfNat_val]
  · refine storeRegs_readMem_of_ne s fun k hk e => ha ?_
    exact List.mem_map.mpr ⟨k, List.mem_range.mpr hk, e.symm⟩
  · rw [storeRegs_eq]
    exact withMem_frame s _

/-- Settles O35: the loop writes V0 to Vx alone, V[k] from the k-th data address. -/
theorem loadRegistersFromIndex : Obligations.LoadRegistersFromIndex := by
  refine ⟨fun x => decode_place_x x, fun x s => ⟨_, rfl, fun k hk => ?_, fun k hk => ?_, ?_⟩⟩
  · rw [loadRegs_readV s (by omega) k, if_pos (Nat.lt_succ_of_le hk)]
  · rw [loadRegs_readV s (by omega) k, if_neg (Nat.not_lt.mpr (Nat.succ_le_of_lt hk))]
  · rw [loadRegs_eq]
    exact ⟨fun _ _ => rfl, rfl, rfl, ⟨rfl, fun _ => rfl⟩, fun _ _ => rfl,
      ⟨fun _ => rfl, rfl, rfl, rfl, rfl, rfl, rfl⟩⟩

end Sys2Proof.Machine
end

section
/-! The display (44_display.md R117 to R120): the loop of DRW in the closed form of R119. -/

namespace Sys2Proof.Machine

/-- Settles O36: the framebuffer alone is written. -/
theorem clsClearsFramebuffer : Obligations.ClsClearsFramebuffer :=
  ⟨rfl, fun _ => ⟨_, rfl, clearFramebuffer_pixel, fun _ _ => rfl, rfl, rfl, fun _ _ => rfl,
    ⟨rfl, fun _ => rfl⟩, fun _ => rfl, rfl, rfl, rfl, rfl, rfl, rfl⟩⟩

/-! ### The lit cells -/

theorem eq_wrapRow_iff {y0 : Byte} {r : Nat} {row : Fin 32} :
    row = wrapRow y0 r ↔ row.val = (y0.toNat + r) % 32 :=
  Fin.ext_iff

theorem eq_wrapCol_iff {x0 : Byte} {c : Nat} {col : Fin 64} :
    col = wrapCol x0 c ↔ col.val = (x0.toNat + c) % 64 :=
  Fin.ext_iff

/-- The loop lights the cells of R119. -/
theorem spriteLights_iff (s : State) (x0 y0 : Byte) (n : Nat) (row : Fin 32) (col : Fin 64) :
    spriteLights s x0 y0 n row col ↔ Lights s x0 y0 n row col := by
  constructor
  · rintro ⟨r, hr, c, hc, bit, hrow, hcol⟩
    rw [spriteBit_eq _ hc] at bit
    exact ⟨r, c, hr, hc, bit, eq_wrapRow_iff.mp hrow, eq_wrapCol_iff.mp hcol⟩
  · rintro ⟨r, c, hr, hc, bit, hrow, hcol⟩
    rw [← spriteBit_eq _ hc] at bit
    exact ⟨r, hr, c, hc, bit, eq_wrapRow_iff.mpr hrow, eq_wrapCol_iff.mpr hcol⟩

/-- The lit cells depend on I and memory alone. -/
theorem lights_congr {s t : State} (hi : t.i = s.i) (hm : SameMem [] s t) (x0 y0 : Byte) (n : Nat)
    (row : Fin 32) (col : Fin 64) : Lights t x0 y0 n row col ↔ Lights s x0 y0 n row col := by
  have bytes : ∀ a, t.readMem a = s.readMem a := fun a => hm a List.not_mem_nil
  simp only [Lights, hi, bytes]

/-! ### One draw -/

theorem finishDrawing_readV_flag (s : State) (d : Drawing) :
    (s.finishDrawing d).readV 15 = flagByte d.collision :=
  readV_writeV_same _ _ _

/-- A finished drawing has written the framebuffer and VF alone. -/
theorem finishDrawing_frame (s : State) (d : Drawing) :
    SameV [15] s (s.finishDrawing d) ∧ (s.finishDrawing d).i = s.i ∧ (s.finishDrawing d).pc = s.pc
      ∧ SameMem [] s (s.finishDrawing d) ∧ SameStack s (s.finishDrawing d)
      ∧ SameRest s (s.finishDrawing d) :=
  ⟨fun _ h => readV_writeV_of_ne _ _ (by simpa using h), rfl, rfl, fun _ _ => rfl,
    ⟨rfl, fun _ => rfl⟩, ⟨fun _ => rfl, rfl, rfl, rfl, rfl, rfl, rfl⟩⟩

/-- The word of DRW decodes to it. -/
theorem decode_place_drw (x y : RegIdx) (n : Fin 16) :
    decode (0xD000 ||| placeX x ||| placeY y ||| placeN n) = .drw x y n :=
  decode_encode_drw x y n

/-- Settles O37: the loop flips the cells it lights, which are those of R119, and VF is its collision
flag. -/
theorem drawFlipsExactlyTheLitCells : Obligations.DrawFlipsExactlyTheLitCells := by
  refine ⟨decode_place_drw, fun x y n s => ?_⟩
  obtain ⟨pixels, collides⟩ :=
    drawSprite_pixel s (s.readV x) (s.readV y) n.val (by omega)
  simp only [spriteLights_iff] at pixels collides
  refine ⟨_, rfl, fun row col => (pixels row col).1, fun row col => (pixels row col).2, fun hit => ?_,
    fun miss => ?_, finishDrawing_frame s _⟩
  · rw [finishDrawing_readV_flag, collides.mpr hit]
    rfl
  · rw [finishDrawing_readV_flag, Bool.eq_false_iff.mpr (mt collides.mp miss)]
    rfl

/-! ### Two draws -/

/-- Settles O38: the second draw lights the cells of the first, so each is flipped twice; on a clear
framebuffer the first sets exactly those, and the second meets them set. -/
theorem drawTwiceRestoresFramebuffer : Obligations.DrawTwiceRestoresFramebuffer := by
  intro x y n s hx hy
  obtain ⟨t, drawn, flips, keeps, _, no_hit, sameV, same_i, _, sameMem, _⟩ :=
    drawFlipsExactlyTheLitCells.2 x y n s
  obtain ⟨u, drawn', flips', keeps', hit', no_hit', _⟩ := drawFlipsExactlyTheLitCells.2 x y n t
  rw [sameV x (by simpa using hx), sameV y (by simpa using hy)] at flips' keeps' hit' no_hit'
  simp only [lights_congr same_i sameMem] at flips' keeps' hit' no_hit'
  refine ⟨t, u, drawn, drawn', fun row col => ?_, fun clear => ?_⟩
  · by_cases lit : Lights s (s.readV x) (s.readV y) n.val row col
    · rw [flips' row col lit, flips row col lit, Bool.not_not]
    · rw [keeps' row col lit, keeps row col lit]
  · have first : t.readV 15 = 0 := no_hit fun ⟨row, col, _, set⟩ => by
      rw [clear row col] at set
      contradiction
    have second_hits : (∃ row col, Lights s (s.readV x) (s.readV y) n.val row col) →
        u.readV 15 = 1 := fun ⟨row, col, lit⟩ =>
      hit' ⟨row, col, lit, by rw [flips row col lit, clear row col]; rfl⟩
    have second_misses : (¬ ∃ row col, Lights s (s.readV x) (s.readV y) n.val row col) →
        u.readV 15 = 0 := fun none => no_hit' fun ⟨row, col, lit, _⟩ => none ⟨row, col, lit⟩
    refine ⟨first, ⟨fun one => ?_, second_hits⟩, ⟨fun zero some => ?_, second_misses⟩⟩
    · by_contra none
      exact absurd (one.symm.trans (second_misses none)) (by decide)
    · exact absurd (zero.symm.trans (second_hits some)) (by decide)

end Sys2Proof.Machine
end

section
/-! The host's ports and initialization (60_exceptions.md R140 to R145, 70_reset_and_hazards.md R150,
R152), and the whole wait of LD Vx, K (45_timers_keys.md R124). -/

namespace Sys2Proof.Machine

/-! ### set_key (R142) -/

section
variable (s : State) {k : KeyIdx} {p : Bool}

theorem setKey_of_latches (h : s.latches k p = true) :
    s.setKey k p = (s.setLatch (some k)).setKeyAt k p := by
  rw [State.setKey, if_pos h]

theorem setKey_of_not_latches (h : ¬ s.latches k p = true) : s.setKey k p = s.setKeyAt k p := by
  rw [State.setKey, if_neg h]

theorem setKey_keyAt (j : KeyIdx) : (s.setKey k p).keyAt j = if j = k then p else s.keyAt j := by
  by_cases h : s.latches k p = true
  · rw [setKey_of_latches s h, keyAt_setKeyAt, setLatch_keyAt]
  · rw [setKey_of_not_latches s h, keyAt_setKeyAt]

theorem setKey_eq :
    s.setKey k p = { s with key := (s.setKey k p).key, latchedKey := (s.setKey k p).latchedKey } := by
  by_cases h : s.latches k p = true
  · rw [setKey_of_latches s h]
    rfl
  · rw [setKey_of_not_latches s h]
    rfl

end

/-- Settles O44: the key is written either way; `latches` is the condition of the latch. -/
theorem setKeyLatchesFirstPress : Obligations.SetKeyLatchesFirstPress := by
  intro s k p
  refine ⟨_, rfl, ?_, fun j hj => ?_, fun first => ?_, fun not_first => ?_, setKey_eq s⟩
  · rw [setKey_keyAt, if_pos rfl]
  · rw [setKey_keyAt, if_neg hj]
  · rw [setKey_of_latches s ((latches_iff s k p).mpr first), setKeyAt_latchedKey, setLatch_latchedKey]
  · rw [setKey_of_not_latches s (mt (latches_iff s k p).mp not_first), setKeyAt_latchedKey]

/-! ### load_program (R128, R152) -/

/-- Settles O45: the size decides, and the loop writes the image's addresses alone. -/
theorem loadProgramCopiesImage : Obligations.LoadProgramCopiesImage := by
  refine ⟨fun s bytes large => ⟨loadProgram_of_large s large, act_loadProgram_of_large s large⟩,
    fun s bytes fits => ?_⟩
  have base : programBase.toNat = 0x200 := rfl
  refine ⟨_, loadProgram_of_fits s (Nat.not_lt.mpr fits), fun j hj => ?_, fun a ha => ?_,
    writeBytes_eq s bytes _⟩
  · exact writeBytes_readMem_image s bytes (by omega) j hj
  · rcases ha with below | above
    · exact writeBytes_readMem_below s bytes below (by omega)
    · exact writeBytes_readMem_above s bytes above

/-! ### Initialization (R150) -/

theorem resetByte_glyph (cfg : Config) (j : Fin 80) :
    resetByte cfg (cfg.fontBase.toNat + j.val) = cfg.fontGlyphs[j.val] := by
  simp [resetByte]

/-- The font table does not wrap (R7). -/
theorem glyphByte_addr {cfg : Config} (wf : cfg.wf) (j : Fin 80) :
    (mask12 (cfg.fontBase + BitVec.ofNat 16 j.val)).toNat = cfg.fontBase.toNat + j.val := by
  rw [mask12, BitVec.toNat_setWidth, BitVec.toNat_add, BitVec.toNat_ofNat]
  omega

/-- Settles O48: memory reads as the reset contents, the font table inside its bounds and 0 outside. -/
theorem resetMemoryAndStatus : Obligations.ResetMemoryAndStatus := by
  intro cfg wf
  refine ⟨fun j => ?_, fun a ha => ?_, init_keyAt cfg, clearFramebuffer_pixel, rfl, rfl⟩
  · rw [init_readMem, glyphByte_addr wf, resetByte_glyph]
  · rw [init_readMem, resetByte_outside ha]

/-! ### The wait (R124, R142) -/

/-- The state `t` of a core whose LD Vx, K, fetched at `s`, is suspended with the key `k` latched. The
host may have changed the timers, the keypad and memory since. -/
structure Pressed (s : State) (x : RegIdx) (k : KeyIdx) (t : State) : Prop where
  status : t.status = .waiting x
  latch  : t.latchedKey = some k
  pc     : t.pc = s.pc + 2
  v      : t.v = s.v
  i      : t.i = s.i
  stack  : t.stack = s.stack
  sp     : t.sp = s.sp
  fb     : t.fb = s.fb
  cfg    : t.cfg = s.cfg

theorem act_step_of_next {s t : State} (h : step s = .next t) : s.act .step = t := by
  simp only [State.act, h]

section
variable {s t : State} {x : RegIdx} {k : KeyIdx}

/-- LD Vx, K suspends, and the press of a released key is latched; memory is not touched. -/
theorem pressed_of_fetches (hf : Fetches s (0xF00A ||| placeX x)) (hk : s.keyAt k = false) :
    Pressed s x k ((s.act .step).act (.setKey k true))
      ∧ ((s.act .step).act (.setKey k true)).mem = s.mem := by
  have suspended : s.act .step = ((s.setPc (s.pc + 2)).setStatus (.waiting x)).setLatch none := by
    apply act_step_of_next
    rw [step_of_decode (i := .ldVxK x) hf (decode_place_x x) nofun]
    rfl
  have latches : (((s.setPc (s.pc + 2)).setStatus (.waiting x)).setLatch none).latches k true
      = true := (latches_iff _ k true).mpr ⟨⟨x, rfl⟩, rfl, rfl, hk⟩
  rw [suspended, State.act, setKey_of_latches _ latches]
  exact ⟨⟨rfl, rfl, rfl, rfl, rfl, rfl, rfl, rfl, rfl⟩, rfl⟩

/-- The host cannot end the wait, nor take its key back. -/
theorem Pressed.act (h : Pressed s x k t) {a : Action} (ha : a ≠ .step) : Pressed s x k (t.act a) := by
  have latch := act_host_keeps_latch t ha h.latch
  obtain ⟨host, _⟩ := act_host_eq t ha
  rw [host] at latch ⊢
  exact ⟨h.status, latch, h.pc, h.v, h.i, h.stack, h.sp, h.fb, h.cfg⟩

theorem Pressed.run (h : Pressed s x k t) {as : List Action} (has : .step ∉ as) :
    Pressed s x k (t.run as) :=
  run_keeps (fun _ hu _ ha => hu.act fun e => has (e ▸ ha)) h

/-- Only a program load writes memory between two steps. -/
theorem run_host_mem {as : List Action} (has : .step ∉ as) (hload : ∀ bytes, .loadProgram bytes ∉ as) :
    (t.run as).mem = t.mem :=
  run_keeps (P := fun u => u.mem = t.mem)
    (fun u hu _ ha => ((act_host_eq u fun e => has (e ▸ ha)).2
      fun bytes e => hload bytes (e ▸ ha)).trans hu) rfl

theorem Pressed.readV (h : Pressed s x k t) (r : RegIdx) : t.readV r = s.readV r := by
  rw [State.readV, h.v, State.readV]

theorem Pressed.stackAt (h : Pressed s x k t) (j : Fin 16) : t.stackAt j = s.stackAt j := by
  rw [State.stackAt, State.stackAt, h.stack]

theorem Pressed.readMem (h : Pressed s x k t) (hm : t.mem = s.mem) (a : Addr) :
    t.readMem a = s.readMem a := by
  rw [State.readMem, State.readMem, h.cfg, hm]

/-- The step that completes the wait: one register write, the status and the latch. -/
theorem Pressed.act_step (h : Pressed s x k t) :
    t.act .step = ((t.writeV x (BitVec.ofNat 8 k.val)).setStatus .running).setLatch none := by
  rw [act_step_of_next (step_of_waiting t h.status), stepWaiting_of_latch h.latch]

end

/-- Settles O42: the press is latched, and what the host does next can neither end the wait nor
replace the key, so the last step writes it. -/
theorem waitEndsWithFirstPress : Obligations.WaitEndsWithFirstPress := by
  intro s x k others hf hk hsteps
  obtain ⟨pressed, mem_kept⟩ := pressed_of_fetches hf hk
  have moves : s.run ([.step, .setKey k true] ++ others ++ [.step])
      = (((s.act .step).act (.setKey k true)).run others).act .step := by
    simp [State.run]
  have still : Pressed s x k (((s.act .step).act (.setKey k true)).run others) := pressed.run hsteps
  have mem_same : (∀ bytes, .loadProgram bytes ∉ others) →
      (((s.act .step).act (.setKey k true)).run others).mem = s.mem := fun hload =>
    (run_host_mem hsteps hload).trans mem_kept
  rw [moves]
  generalize ((s.act .step).act (.setKey k true)).run others = t at still mem_same
  obtain ⟨sameV, _⟩ := writeV_frame t x (BitVec.ofNat 8 k.val)
  refine ⟨_, still.act_step, ?_, rfl, rfl, still.pc, fun r hr => (sameV r hr).trans (still.readV r),
    still.i, ⟨still.sp, still.stackAt⟩, fun row col => ?_,
    fun hload a _ => still.readMem (mem_same hload) a⟩
  · rw [setLatch_readV, setStatus_readV, readV_writeV_same, keyByte_toNat]
  · rw [setLatch_fb, setStatus_fb, writeV_fb, still.fb]

end Sys2Proof.Machine
end

section
/-! What no rule reads: ST (10_state.md R33) and the stack entries at or above SP (R28). A step is run
beside the same step with another ST and another stack, whose live entries agree. -/

namespace Sys2Proof.Machine

/-- The same state with another ST and another stack. -/
def State.withHidden (s : State) (b : Byte) (k : Vector Word 16) : State :=
  { s with st := b, stack := k }

/-- The stack `k` has the live entries of `s`. -/
def SameLive (s : State) (k : Vector Word 16) : Prop :=
  ∀ j : Fin 16, j.val < s.sp.val → k[j.val] = s.stackAt j

/-- Where the run from `s` to `t` has an ST of its own, the other run has gone from `b` to `b'`: both
have kept theirs, or both have written the same. -/
def StFollows (s t : State) (b b' : Byte) : Prop :=
  (b' = b ∧ t.st = s.st) ∨ b' = t.st

/-- Where the run from `s` to `t` has a stack of its own, the other run has gone from `k` to `k'`: both
have kept theirs, or both have pushed the same. -/
def StackFollows (s t : State) (k k' : Vector Word 16) : Prop :=
  (k' = k ∧ t.stack = s.stack ∧ t.sp.val ≤ s.sp.val)
  ∨ ∃ (j : Fin 16) (a : Word), s.sp.val = j.val ∧ t.sp.val = j.val + 1 ∧ k' = k.set j.val a
      ∧ t.stack = s.stack.set j.val a

/-- The outcome `o` is the state `t` but for an ST and a stack that have followed it. -/
def Shadows (s t : State) (b : Byte) (k : Vector Word 16)
    (o : Host.Outcome State Fault Refusal) : Prop :=
  ∃ b' k', o = .next (t.withHidden b' k') ∧ StFollows s t b b' ∧ StackFollows s t k k'

section
variable {s t : State} {b : Byte} {k : Vector Word 16}

/-- Both runs have kept ST and the stack. -/
theorem Shadows.of_kept {o : Host.Outcome State Fault Refusal} (ho : o = .next (t.withHidden b k))
    (st : t.st = s.st) (stack : t.stack = s.stack) (sp : t.sp = s.sp) : Shadows s t b k o :=
  ⟨b, k, ho, .inl ⟨rfl, st⟩, .inl ⟨rfl, stack, le_of_eq (congrArg Fin.val sp)⟩⟩

/-! ### The operations beside each other -/

theorem withHidden_skipIf (c : Bool) : (s.withHidden b k).skipIf c = (s.skipIf c).withHidden b k := by
  cases c <;> rfl

theorem withHidden_storeRegs (n : Nat) :
    (s.withHidden b k).storeRegs n = (s.storeRegs n).withHidden b k := by
  induction n with
  | zero => rfl
  | succ n ih =>
    rw [storeRegs_succ, ih, storeRegs_succ]
    rfl

theorem withHidden_loadRegs (n : Nat) :
    (s.withHidden b k).loadRegs n = (s.loadRegs n).withHidden b k := by
  induction n with
  | zero => rfl
  | succ n ih =>
    rw [loadRegs_succ, ih, loadRegs_succ]
    rfl

theorem withHidden_stepWaiting (x : RegIdx) :
    (s.withHidden b k).stepWaiting x = (s.stepWaiting x).withHidden b k := by
  cases hl : s.latchedKey with
  | none => rw [stepWaiting_of_no_latch hl, stepWaiting_of_no_latch (s := s.withHidden b k) hl]
  | some j =>
    rw [stepWaiting_of_latch hl, stepWaiting_of_latch (s := s.withHidden b k) hl]
    rfl

/-! ### The execute phase beside itself -/

theorem shadows_of_raises {i : Instr} {e : Fault} (raises : Raises s i e)
    (h : exec i s = .next t) : Shadows s t b k (exec i (s.withHidden b k)) := by
  cases (exec_of_raises raises).symm.trans h
  exact .of_kept (exec_of_raises (raises.congr rfl rfl)) rfl rfl rfl

/-- CALL pushes the same address on both stacks. -/
theorem shadows_call {nnn : Addr} (h : exec (.call nnn) s = .next t) :
    Shadows s t b k (exec (.call nnn) (s.withHidden b k)) := by
  by_cases full : s.sp.val = 16
  · exact shadows_of_raises (.call nnn full) h
  · have room : s.sp.val = (⟨s.sp.val, by omega⟩ : Fin 16).val := rfl
    cases (exec_call_of_room nnn room).symm.trans h
    exact ⟨b, k.set s.sp.val s.pc, exec_call_of_room (s := s.withHidden b k) nnn room,
      .inl ⟨rfl, rfl⟩, .inr ⟨_, s.pc, room, rfl, rfl, rfl⟩⟩

/-- RET pops a live entry, the same on both stacks. -/
theorem shadows_ret (live : SameLive s k) (h : exec .ret s = .next t) :
    Shadows s t b k (exec .ret (s.withHidden b k)) := by
  by_cases empty : s.sp.val = 0
  · exact shadows_of_raises (.ret empty) h
  · obtain ⟨j, hj⟩ : ∃ j : Fin 16, s.sp.val = j.val + 1 :=
      ⟨⟨s.sp.val - 1, by omega⟩, by simp only; omega⟩
    have same : (s.withHidden b k).stackAt j = s.stackAt j := live j (by omega)
    cases (exec_ret_of_live hj).symm.trans h
    refine ⟨b, k, (exec_ret_of_live (s := s.withHidden b k) hj).trans ?_, .inl ⟨rfl, rfl⟩,
      .inl ⟨rfl, rfl, ?_⟩⟩
    · rw [same]
      rfl
    · rw [hj]
      exact Nat.le_succ j.val

theorem shadows_skipIf (c : Bool) :
    Shadows s (s.skipIf c) b k (.next ((s.withHidden b k).skipIf c)) := by
  rw [withHidden_skipIf, skipIf_eq_setPc]
  exact .of_kept rfl rfl rfl rfl

/-- SKP and SKNP read a register and a key alone. -/
theorem shadows_skip_on_key (x : RegIdx) :
    (exec (.skp x) s = .next t → Shadows s t b k (exec (.skp x) (s.withHidden b k)))
      ∧ (exec (.sknp x) s = .next t → Shadows s t b k (exec (.sknp x) (s.withHidden b k))) := by
  by_cases large : 15 < (s.readV x).toNat
  · exact ⟨shadows_of_raises (.skp x large), shadows_of_raises (.sknp x large)⟩
  · have hk : (s.readV x).toNat = (⟨(s.readV x).toNat, by omega⟩ : KeyIdx).val := rfl
    obtain ⟨skp, sknp⟩ := exec_skip_on_key hk
    obtain ⟨skp', sknp'⟩ := exec_skip_on_key (s := s.withHidden b k) hk
    constructor
    · intro h
      cases skp.symm.trans h
      rw [skp']
      exact shadows_skipIf _
    · intro h
      cases sknp.symm.trans h
      rw [sknp']
      exact shadows_skipIf _

/-- Every instruction: LD ST, Vx writes the same ST, CALL pushes the same entry, the others keep both. -/
theorem shadows_exec (i : Instr) (live : SameLive s k) (h : exec i s = .next t) :
    Shadows s t b k (exec i (s.withHidden b k)) := by
  cases i with
  | ret => exact shadows_ret live h
  | call nnn => exact shadows_call h
  | skp x => exact (shadows_skip_on_key x).1 h
  | sknp x => exact (shadows_skip_on_key x).2 h
  | ldStVx x =>
    cases h
    exact ⟨s.readV x, k, rfl, .inr rfl, .inl ⟨rfl, rfl, le_rfl⟩⟩
  | seImm x kk | sneImm x kk | seReg x y | sneReg x y =>
    cases h
    exact shadows_skipIf _
  | ldMemVx x =>
    cases h
    refine .of_kept (congrArg _ (withHidden_storeRegs _)) ?_ ?_ ?_ <;> rw [storeRegs_eq]
  | ldVxMem x =>
    cases h
    refine .of_kept (congrArg _ (withHidden_loadRegs _)) ?_ ?_ ?_ <;> rw [loadRegs_eq]
  | _ =>
    cases h
    exact .of_kept rfl rfl rfl rfl

/-! ### The step beside itself -/

theorem fetches_withHidden {w : Word} (hf : Fetches s w) : Fetches (s.withHidden b k) w :=
  ⟨hf.running, hf.even, hf.low, hf.high, hf.word⟩

theorem shadows_step (live : SameLive s k) (h : step s = .next t) :
    Shadows s t b k (step (s.withHidden b k)) := by
  obtain ⟨x, hx, rfl⟩ | ⟨hr, hl, rfl⟩ | ⟨hf, rfl⟩ | ⟨w, hf, h0, he⟩ := step_cases s h
  · rw [step_of_waiting (s.withHidden b k) hx, withHidden_stepWaiting]
    refine .of_kept rfl ?_ ?_ ?_ <;> rw [stepWaiting_eq]
  · rw [step_of_badFetch (s.withHidden b k) hr hl]
    exact .of_kept rfl rfl rfl rfl
  · rw [step_of_fetches_zero (fetches_withHidden hf)]
    exact .of_kept rfl rfl rfl rfl
  · rw [step_of_fetches _ (fetches_withHidden hf), afterFetch_of_ne_zero _ h0]
    exact shadows_exec (s := s.setPc (s.pc + 2)) (decode w) live he

end

/-- Settles O58: the stack beside is the same stack, and follows it; ST is kept or written alike. -/
theorem soundTimerIsNeverRead : Obligations.SoundTimerIsNeverRead := by
  intro s t b h
  have live : SameLive s s.stack := fun _ _ => rfl
  obtain ⟨b', k', hu, st, stack⟩ := shadows_step (b := b) live h
  have same_stack : k' = t.stack := by
    obtain ⟨rfl, ht, _⟩ | ⟨j, a, _, _, rfl, ht⟩ := stack
    · exact ht.symm
    · exact ht.symm
  refine ⟨_, hu, ?_, st.imp And.left id⟩
  rw [same_stack]
  rfl

/-- Entries that both runs kept, or pushed alike, agree below the new SP. -/
theorem sameLive_of_follows {s t : State} {k k' : Vector Word 16} (live : SameLive s k)
    (h : StackFollows s t k k') : SameLive t k' := by
  intro j hj
  obtain ⟨rfl, ht, hsp⟩ | ⟨i, a, hi, hti, rfl, ht⟩ := h
  · rw [State.stackAt, ht]
    exact live j (by omega)
  · rw [State.stackAt, ht, Vector.getElem_set, Vector.getElem_set]
    split
    case isTrue => rfl
    case isFalse hne => exact live j (by omega)

/-- Settles O59: ST beside is the same ST, and follows it; the stacks agree below the new SP. -/
theorem deadStackIsNeverRead : Obligations.DeadStackIsNeverRead := by
  intro s s' t same h
  have shadow : s' = s.withHidden s.st s'.stack := same.others
  obtain ⟨b', k', hu, st, stack⟩ := shadows_step (b := s.st) same.live h
  have same_st : b' = t.st := by
    obtain ⟨rfl, ht⟩ | ht := st
    · exact ht.symm
    · exact ht
  refine ⟨_, (congrArg step shadow).trans hu, rfl, sameLive_of_follows same.live stack, ?_⟩
  rw [same_st]
  rfl

end Sys2Proof.Machine
end
